-- ==== Sys2Proof/Word.lean ====
section
/-! DEFINITION. The word: a signed integer of `W` bits, with `W` a parameter (spec/00_scope.md R6).

The spec gives words signed values, exact integer arithmetic and a decimal encoding, and numbers no bit (R12, R13), so a
word is an `Int` and its width is the predicate `InRange W`, which `State.Wf` states of every cell and every step keeps.
DESIGN CHOICE, safe: notes/assumptions/2.md. -/

namespace Sys2Proof

/-- The content of a memory cell, a raw operand, an ALU value, an input or output value (R6). -/
abbrev Word := Int

/-- `2^(W-1)`, the bound of the signed `W`-bit range (R6). -/
def signBound (W : Nat) : Int := ((2 ^ (W - 1) : Nat) : Int)

/-- `inrange_W(v)`: `-2^(W-1) <= v <= 2^(W-1)-1` (R13). -/
abbrev InRange (W : Nat) (v : Int) : Prop := -signBound W ≤ v ∧ v ≤ signBound W - 1

end Sys2Proof
end

