-- ==== Sys2Proof/Config.lean ====
section
/-! DEFINITION. The implementation parameters of spec/00_scope.md section 3 (R6 to R10).

They are fixed for a machine. `State` carries them in its field `cfg`, which no step and no host request changes
(notes/assumptions/3.md), so a statement over all states is a statement over all parameter values. The spec leaves no
value free, so there is no opaque constant here. -/

namespace Sys2Proof

/-- `OVERFLOW_POLICY`: what Add and Mul do when the exact result is outside the `W`-bit range (R8, R103). -/
inductive OverflowPolicy where
  | fault
  | wrap
  deriving DecidableEq, Repr

/-- `VARIANT`: the instruction-set revision (R3, R9, R75). -/
inductive Variant where
  | extended
  | reduced
  deriving DecidableEq, Repr

/-- `UNUSED_MODE_DIGITS`: whether mode digits at or above the arity are examined (R10, R72). -/
inductive UnusedModeDigits where
  | ignore
  | validate
  deriving DecidableEq, Repr

/-- The parameters of one machine. -/
structure Config where
  /-- `W`, the word width in bits (R6). -/
  wordBits : Nat
  /-- `N_MAX`, the largest memory size in words (R7). -/
  nMax : Nat
  /-- `OVERFLOW_POLICY` (R8). -/
  overflow : OverflowPolicy
  /-- `VARIANT` (R9). -/
  variant : Variant
  /-- `UNUSED_MODE_DIGITS` (R10). -/
  unusedDigits : UnusedModeDigits
  deriving DecidableEq, Repr

/-- The defaults of R6, R8, R9 and R10. `N_MAX` is OPEN in the spec (R7, D5): the largest value R7 allows is taken.
DESIGN CHOICE, unsafe: notes/assumptions/4.md. -/
def Config.standard : Config :=
  { wordBits := 64, nMax := 2 ^ 63, overflow := .fault, variant := .extended, unusedDigits := .ignore }

/-- Parameter values a machine can have: `N_MAX <= 2^(W-1)` (R7), and `W >= 2`, because a cell must hold the result 1 of
LessThan and Equals (DEDUCED, safe: notes/assumptions/5.md). -/
abbrev Config.Wf (cfg : Config) : Prop := 2 ≤ cfg.wordBits ∧ cfg.nMax ≤ 2 ^ (cfg.wordBits - 1)

end Sys2Proof
end

