-- ==== Sys2Proof/Syntax.lean ====
section
/-! DEFINITION. The instructions as syntax: addressing modes, opcodes and the nine instructions of spec/30_encoding.md R66
(spec/opcode_table.json), each with its operands.

A read operand keeps its mode and its raw word. A write operand is its raw word alone: its mode digit does not change the
instruction (R71, R78; notes/assumptions/14.md). -/

namespace Sys2Proof

/-- The two addressing modes (R69). -/
inductive Mode where
  | position
  | immediate
  deriving DecidableEq, Repr

/-- A read operand: its addressing mode and the raw word of its cell (R69, R70). -/
structure ReadOperand where
  mode : Mode
  raw : Word
  deriving DecidableEq, Repr

/-- The nine operations the opcode digit pair selects (R66). -/
inductive Opcode where
  | add
  | mul
  | input
  | output
  | jumpIfTrue
  | jumpIfFalse
  | lessThan
  | equals
  | halt
  deriving DecidableEq, Repr

/-- A decoded instruction with its raw operands (R76): opcode, mode of each read operand, raw words. -/
inductive Instr where
  /-- Add (R110). -/
  | add (a b : ReadOperand) (dst : Word)
  /-- Mul (R111). -/
  | mul (a b : ReadOperand) (dst : Word)
  /-- In (R115). -/
  | input (dst : Word)
  /-- Out (R116). -/
  | output (a : ReadOperand)
  /-- JumpIfTrue (R120). -/
  | jumpIfTrue (a target : ReadOperand)
  /-- JumpIfFalse (R121). -/
  | jumpIfFalse (a target : ReadOperand)
  /-- LessThan (R125). -/
  | lessThan (a b : ReadOperand) (dst : Word)
  /-- Equals (R126). -/
  | equals (a b : ReadOperand) (dst : Word)
  /-- Halt (R130). -/
  | halt
  deriving DecidableEq, Repr

/-- The operation of an instruction. -/
def Instr.opcode : Instr → Opcode
  | .add _ _ _ => .add
  | .mul _ _ _ => .mul
  | .input _ => .input
  | .output _ => .output
  | .jumpIfTrue _ _ => .jumpIfTrue
  | .jumpIfFalse _ _ => .jumpIfFalse
  | .lessThan _ _ _ => .lessThan
  | .equals _ _ _ => .equals
  | .halt => .halt

/-- The read operands, in operand order (R66). -/
def Instr.readOperands : Instr → List ReadOperand
  | .add a b _ => [a, b]
  | .mul a b _ => [a, b]
  | .input _ => []
  | .output a => [a]
  | .jumpIfTrue a target => [a, target]
  | .jumpIfFalse a target => [a, target]
  | .lessThan a b _ => [a, b]
  | .equals a b _ => [a, b]
  | .halt => []

/-- The raw operands `raw_0 .. raw_{arity-1}`, in operand order (R63). -/
def Instr.raws : Instr → List Word
  | .add a b dst => [a.raw, b.raw, dst]
  | .mul a b dst => [a.raw, b.raw, dst]
  | .input dst => [dst]
  | .output a => [a.raw]
  | .jumpIfTrue a target => [a.raw, target.raw]
  | .jumpIfFalse a target => [a.raw, target.raw]
  | .lessThan a b dst => [a.raw, b.raw, dst]
  | .equals a b dst => [a.raw, b.raw, dst]
  | .halt => []

end Sys2Proof
end

