-- ==== Sys2Proof/WellFormed.lean ====
section
/-! DEFINITION. Which instructions a machine with given parameters can hold: every raw operand is a `W`-bit word (R70), the
opcode belongs to the variant (R68), and the variant accepts the modes (R75). Sys2Proof/Tests/Slice0.lean has an
ill-formed term for each of the three checks. -/

namespace Sys2Proof

/-- Every raw operand is a `W`-bit signed integer (R70). -/
abbrev Instr.RawsInRange (W : Nat) (i : Instr) : Prop := ∀ r ∈ i.raws, InRange W r

/-- The reduced set has Add, Mul and Halt only (R3, R68). -/
abbrev Instr.InVariant (v : Variant) (i : Instr) : Prop :=
  v = .extended ∨ i.opcode = .add ∨ i.opcode = .mul ∨ i.opcode = .halt

/-- The reduced set has Position addressing only (R3, R75). -/
abbrev Instr.ModesInVariant (v : Variant) (i : Instr) : Prop :=
  v = .extended ∨ ∀ o ∈ i.readOperands, o.mode = .position

/-- An instruction that a machine with parameters `cfg` can hold. -/
abbrev Instr.WellFormed (cfg : Config) (i : Instr) : Prop :=
  i.RawsInRange cfg.wordBits ∧ i.InVariant cfg.variant ∧ i.ModesInVariant cfg.variant

end Sys2Proof
end

