-- ==== Sys2Proof/Decode.lean ====
section
/-! DEFINITION. The decoder and the encoder of spec/30_encoding.md.

`decode` is the first decode stage, R73: one instruction word to an opcode with its modes, or exactly one decode failure.
`Header.assemble` is the second stage, R76: it fetches the raw operands in ascending order from whatever supplies them.
The machine supplies memory cells (`State.fetch`); `decodeWords` supplies a list of words. `encode` is R78. -/

namespace Sys2Proof

/-! ### Opcodes -/

/-- The opcode digit pair of an operation (R66). -/
def Opcode.number : Opcode → Nat
  | .add => 1
  | .mul => 2
  | .input => 3
  | .output => 4
  | .jumpIfTrue => 5
  | .jumpIfFalse => 6
  | .lessThan => 7
  | .equals => 8
  | .halt => 99

/-- `ARITY(opc)`: how many operand words follow the instruction word (R66). -/
def Opcode.arity : Opcode → Nat
  | .add => 3
  | .mul => 3
  | .input => 1
  | .output => 1
  | .jumpIfTrue => 2
  | .jumpIfFalse => 2
  | .lessThan => 3
  | .equals => 3
  | .halt => 0

/-- The length of an instruction in words is `1 + arity` (R67). -/
def Instr.width (i : Instr) : Nat := 1 + i.opcode.arity

/-- `VALID_OPC(VARIANT)`, the set of valid opcode digit pairs (R68), as the operations they select. -/
def validOpcodes : Variant → List Opcode
  | .extended => [.add, .mul, .input, .output, .jumpIfTrue, .jumpIfFalse, .lessThan, .equals, .halt]
  | .reduced => [.add, .mul, .halt]

/-- The operation an opcode digit pair selects, if it is valid for the variant (R66, R68). -/
def Opcode.ofPair (v : Variant) (opc : Int) : Option Opcode :=
  (validOpcodes v).find? (fun op => decide ((op.number : Int) = opc))

/-! ### Decode, first stage -/

/-- The two decode failures (R74). -/
inductive DecodeFailure where
  /-- The opcode digit pair matches no entry of the variant's table; the payload is `w rem 100` (R136). -/
  | unknownOpcode (opc : Int)
  /-- A mode digit the variant does not accept; the payload is the digit (R137). -/
  | invalidAddressingMode (digit : Nat)
  deriving DecidableEq, Repr

/-- `w rem 100`, truncated toward zero: the opcode digit pair (R13, R64, R65). -/
def opcodePair (w : Word) : Int := w.tmod 100

/-- `w quot 100`, truncated toward zero: the mode digit sequence, used only where the opcode pair is at least 1, so that
it is not negative (R64, R73). -/
def modeSequence (w : Word) : Nat := (w.tdiv 100).toNat

/-- `digit k` of a non-negative integer (R12). -/
def digit (m k : Nat) : Nat := m / 10 ^ k % 10

/-- The addressing mode a mode digit selects, or the failure it raises (R69, R73, R75). -/
def modeOfDigit (v : Variant) (d : Nat) : Except DecodeFailure Mode :=
  if d = 0 then .ok .position
  else if d = 1 ∧ v = .extended then .ok .immediate
  else .error (.invalidAddressingMode d)

/-- What the first stage returns: the opcode with the mode of each read operand (R73). The mode digit of a write operand
was checked and does not matter any more (R71). -/
inductive Header where
  | add (m0 m1 : Mode)
  | mul (m0 m1 : Mode)
  | input
  | output (m0 : Mode)
  | jumpIfTrue (m0 m1 : Mode)
  | jumpIfFalse (m0 m1 : Mode)
  | lessThan (m0 m1 : Mode)
  | equals (m0 m1 : Mode)
  | halt
  deriving DecidableEq, Repr

/-- The operation of a header. -/
def Header.opcode : Header → Opcode
  | .add _ _ => .add
  | .mul _ _ => .mul
  | .input => .input
  | .output _ => .output
  | .jumpIfTrue _ _ => .jumpIfTrue
  | .jumpIfFalse _ _ => .jumpIfFalse
  | .lessThan _ _ => .lessThan
  | .equals _ _ => .equals
  | .halt => .halt

/-- The mode digits of the operands, in ascending order, write operands included (R71, R73); the first that fails
raises. -/
def Opcode.header (mode : Nat → Except DecodeFailure Mode) : Opcode → Except DecodeFailure Header
  | .add => do
    let m0 ← mode 0
    let m1 ← mode 1
    let _ ← mode 2
    return .add m0 m1
  | .mul => do
    let m0 ← mode 0
    let m1 ← mode 1
    let _ ← mode 2
    return .mul m0 m1
  | .input => do
    let _ ← mode 0
    return .input
  | .output => do
    let m0 ← mode 0
    return .output m0
  | .jumpIfTrue => do
    let m0 ← mode 0
    let m1 ← mode 1
    return .jumpIfTrue m0 m1
  | .jumpIfFalse => do
    let m0 ← mode 0
    let m1 ← mode 1
    return .jumpIfFalse m0 m1
  | .lessThan => do
    let m0 ← mode 0
    let m1 ← mode 1
    let _ ← mode 2
    return .lessThan m0 m1
  | .equals => do
    let m0 ← mode 0
    let m1 ← mode 1
    let _ ← mode 2
    return .equals m0 m1
  | .halt => return .halt

/-- Check the digits of `rest` from the least significant up, `while rest != 0` (R73). The fuel never runs out where it
is at least `rest`. -/
def scanUnused (v : Variant) : Nat → Nat → Except DecodeFailure Unit
  | 0, _ => .ok ()
  | fuel + 1, rest =>
    if rest = 0 then .ok ()
    else do
      let _ ← modeOfDigit v (rest % 10)
      scanUnused v fuel (rest / 10)

/-- The check of the mode digits at positions at or above the arity, `msq div 10^n` (R72, R73). -/
def checkUnused (cfg : Config) (n msq : Nat) : Except DecodeFailure Unit :=
  match cfg.unusedDigits with
  | .ignore => .ok ()
  | .validate => scanUnused cfg.variant (msq / 10 ^ n) (msq / 10 ^ n)

/-- `Decode(w)` (R73): the opcode first, then the mode digits ascending, then the unused digits. The word 1005 is
JumpIfTrue with a Position condition and an Immediate target, as R64 and R73 and the program P3 of
spec/95_test_vectors.md have it; the example of spec/43_jumps.md R123 takes it for a Position target. DEDUCED, unsafe:
notes/assumptions/21.md. -/
def decode (cfg : Config) (w : Word) : Except DecodeFailure Header :=
  match Opcode.ofPair cfg.variant (opcodePair w) with
  | none => .error (.unknownOpcode (opcodePair w))
  | some op => do
    let h ← op.header (fun k => modeOfDigit cfg.variant (digit (modeSequence w) k))
    checkUnused cfg op.arity (modeSequence w)
    return h

/-! ### Decode, second stage -/

/-- The instruction, its raw operands fetched one by one, `k` ascending (R76, R94). The first operand that fails
raises. -/
def Header.assemble {ε : Type} (operand : Nat → Except ε Word) : Header → Except ε Instr
  | .add m0 m1 => do
    let r0 ← operand 0
    let r1 ← operand 1
    let r2 ← operand 2
    return .add ⟨m0, r0⟩ ⟨m1, r1⟩ r2
  | .mul m0 m1 => do
    let r0 ← operand 0
    let r1 ← operand 1
    let r2 ← operand 2
    return .mul ⟨m0, r0⟩ ⟨m1, r1⟩ r2
  | .input => do
    let r0 ← operand 0
    return .input r0
  | .output m0 => do
    let r0 ← operand 0
    return .output ⟨m0, r0⟩
  | .jumpIfTrue m0 m1 => do
    let r0 ← operand 0
    let r1 ← operand 1
    return .jumpIfTrue ⟨m0, r0⟩ ⟨m1, r1⟩
  | .jumpIfFalse m0 m1 => do
    let r0 ← operand 0
    let r1 ← operand 1
    return .jumpIfFalse ⟨m0, r0⟩ ⟨m1, r1⟩
  | .lessThan m0 m1 => do
    let r0 ← operand 0
    let r1 ← operand 1
    let r2 ← operand 2
    return .lessThan ⟨m0, r0⟩ ⟨m1, r1⟩ r2
  | .equals m0 m1 => do
    let r0 ← operand 0
    let r1 ← operand 1
    let r2 ← operand 2
    return .equals ⟨m0, r0⟩ ⟨m1, r1⟩ r2
  | .halt => return .halt

/-- Why a list of words holds no instruction at its start. -/
inductive ListFailure where
  /-- The first word does not decode. -/
  | decode (f : DecodeFailure)
  /-- The list ends before word `k` of the instruction (`k = 0` is the instruction word). -/
  | missingWord (k : Nat)
  deriving DecidableEq, Repr

/-- Word `k + 1` of an instruction, its operand `k`, in the words after the instruction word. -/
def operandIn (rest : List Word) (k : Nat) : Except ListFailure Word :=
  match rest[k]? with
  | some r => .ok r
  | none => .error (.missingWord (k + 1))

/-- The instruction at the start of a list of words and the words after it (R63, R73, R76). -/
def decodeWords (cfg : Config) : List Word → Except ListFailure (Instr × List Word)
  | [] => .error (.missingWord 0)
  | w :: rest =>
    match decode cfg w with
    | .error f => .error (.decode f)
    | .ok h =>
      match h.assemble (operandIn rest) with
      | .error e => .error e
      | .ok i => .ok (i, rest.drop h.opcode.arity)

/-! ### Encode -/

/-- The mode digit of an addressing mode (R69). -/
def Mode.digit : Mode → Nat
  | .position => 0
  | .immediate => 1

/-- `d_0 + 10*d_1 + 100*d_2` for the mode digits in operand order (R78). -/
def modeNumber : List Mode → Nat
  | [] => 0
  | m :: ms => m.digit + 10 * modeNumber ms

/-- The canonical instruction word `opc + 100 * (d_0 + 10*d_1 + 100*d_2)`, with dst digit 0 (R78). Every write operand
comes after the read operands, so that its digit 0 is an absent one. -/
def Instr.canonicalWord (i : Instr) : Word :=
  ((i.opcode.number + 100 * modeNumber (i.readOperands.map ReadOperand.mode) : Nat) : Int)

/-- The words of an instruction: the canonical instruction word, then the raw operands (R63, R78). -/
def encode (i : Instr) : List Word := i.canonicalWord :: i.raws

/-! ### The words of the opcode table -/

/-- `wrap_W(v)`: the `W`-bit integer congruent to `v` modulo `2^W` (R13). -/
def wrapWord (W : Nat) (v : Int) : Word := Int.bmod v (2 ^ W)

/-- The longest instruction has four words (R63). -/
def maxWidth : Nat := 4

/-- Word `k` of a row of bits that is `w`, of which only the low `nbits` count: bits `W*k` to `W*k + W - 1`, as a
two's-complement integer. The spec numbers no bits: DESIGN CHOICE, safe: notes/assumptions/12.md. -/
def tableWord (W nbits w k : Nat) : Word := wrapWord W ((w % 2 ^ nbits / 2 ^ (W * k) : Nat) : Int)

/-- The words of a row of bits, up to the longest instruction, the first word first. -/
def tableWords (W nbits w : Nat) : List Word := (List.range maxWidth).map (tableWord W nbits w)

/-- The instruction the decoder reads from a row of bits, under the default parameters. -/
def decodeTableWord (nbits w : Nat) : Option Instr :=
  match decodeWords Config.standard (tableWords Config.standard.wordBits nbits w) with
  | .ok (i, _) => some i
  | .error _ => none

end Sys2Proof
end

