-- ==== Sys2Proof/Machine/State.lean ====
section
/-! DEFINITION. The machine's state as plain data (spec/10_state.md), its faults, and the state after reset. -/

namespace Sys2Proof.Machine

/-- The fatal errors of the block with their payloads (spec/60_exceptions.md R135): what the `fault` register holds. The
spec's word for them is "fault". A step that raises one is a step to a NEXT state (`State.raise`, R140); the type `Fault`
below is for the steps that do not exist. -/
inductive FaultKind where
  /-- The opcode digit pair, in `[-99, 99]` (R136). -/
  | unknownOpcode (opc : Int)
  /-- The offending mode digit, in `[0, 9]` (R137). -/
  | invalidAddressingMode (digit : Nat)
  /-- The offending address, a `W`-bit integer or `N` (R25, R138). -/
  | outOfBounds (address : Int)
  /-- In took a `Malformed` item (R139). -/
  | inputParseFailure
  /-- Add or Mul left the `W`-bit range under `OVERFLOW_POLICY = fault` (R141). -/
  | arithmeticOverflow
  deriving DecidableEq, Repr

/-- An item of the input channel (R37). -/
inductive InputItem where
  | value (v : Word)
  | malformed
  deriving DecidableEq, Repr

/-- The memory array (R7, R30): its size `N` in words and its cells as (address, word) pairs. The spec's smallest
addressable unit is the word (R45), so a cell is a word and not a byte. An address in `[0, N)` with no pair holds
`Memory.unlisted`. DESIGN CHOICE, safe: notes/assumptions/1.md. -/
structure Memory where
  size : Nat
  cells : List (Nat × Word)
  deriving DecidableEq, Repr

/-- What an address of `[0, N)` with no pair holds. `load` gives every cell a value (R159), so this names no unwritten
cell: a cell is unlisted exactly when its value is 0. -/
def Memory.unlisted : Word := 0

/-- The canonical form: addresses strictly rising, all below `N`, and no pair with the unlisted value. -/
abbrev Memory.wf (m : Memory) : Prop :=
  m.cells.Pairwise (fun p q => p.1 < q.1) ∧ ∀ p ∈ m.cells, p.1 < m.size ∧ p.2 ≠ Memory.unlisted

/-- The state. `N`, `M`, `pc`, `halted` and `fault` are the block's (R21). `input` and `output` are the channels, which
the spec keeps outside the block (R21, R34; notes/assumptions/8.md). `cfg` holds the parameters
(notes/assumptions/3.md). -/
structure State where
  /-- The parameters of spec/00_scope.md section 3; nothing changes them. -/
  cfg : Config
  /-- `N` and `M` (R7, R30). -/
  mem : Memory
  /-- `pc`, an unsigned word index in `[0, N]` (R11, R22). -/
  pc : Nat
  /-- `halted` (R24). -/
  halted : Bool
  /-- `fault` (R25). -/
  fault : Option FaultKind
  /-- The input channel, the next item first (R37). -/
  input : List InputItem
  /-- The output channel, the oldest value first (R38). -/
  output : List Word
  deriving DecidableEq, Repr

/-- Why a machine has no step: it is stopped (spec/40_engine.md R91; the treatment `stuck` of
spec/93_implementation_defined.md I1). No instruction raises these; `step` answers them before it fetches. Safe: no
claim about a next state of a stopped machine can be proved. notes/assumptions/10.md. -/
inductive Fault where
  /-- `step` on a machine with `halted = true`. Safe. -/
  | halted
  /-- `step` on a machine whose `fault` register holds `k`. Safe. -/
  | faulted (k : FaultKind)
  deriving DecidableEq, Repr

/-- Refusals. No step of this model answers one: every instruction has its meaning. -/
inductive Refusal where
  /-- An instruction with no meaning yet, by its mnemonic. No arm of `exec` uses it. Safe. -/
  | notModelled (mnemonic : String)
  deriving DecidableEq, Repr

/-- The outcome of a step. -/
abbrev Outcome := Host.Outcome State Fault Refusal

/-- The machine right after reset. The block's reset is `load(prog)` (R158), and before a load there is no state, so this
is the load of the program with no words (R159, D28), with the default parameters and empty channels.
DESIGN CHOICE, unsafe: notes/assumptions/6.md. -/
def State.reset : State :=
  { cfg := Config.standard
    mem := { size := 0, cells := [] }
    pc := 0
    halted := false
    fault := none
    input := []
    output := [] }

end Sys2Proof.Machine
end

