-- ==== Sys2Proof/Machine/Ops.lean ====
section
/-! DEFINITION. The named operations on memory, the program counter, the status state and the channels: the primitives of
spec/00_scope.md R14, raising a fault (spec/60_exceptions.md R140), and fetching an instruction (spec/40_engine.md R92 to
R94). Every read and write of a piece of state goes through one of these. -/

namespace Sys2Proof.Machine

/-! ### The memory array -/

/-- The word at address `a` in a list of cells. -/
def cellsGet : List (Nat × Word) → Nat → Word
  | [], _ => Memory.unlisted
  | (b, v) :: rest, a => if a = b then v else cellsGet rest a

/-- Put a pair before the first pair with a greater address. -/
def cellsInsert (a : Nat) (v : Word) : List (Nat × Word) → List (Nat × Word)
  | [] => [(a, v)]
  | (b, u) :: rest => if a < b then (a, v) :: (b, u) :: rest else (b, u) :: cellsInsert a v rest

/-- Make the word at `a` be `v`: drop the pair of `a`, and insert one where `v` is not the unlisted value. -/
def cellsSet (cells : List (Nat × Word)) (a : Nat) (v : Word) : List (Nat × Word) :=
  if v = Memory.unlisted then cells.filter (fun p => p.1 ≠ a)
  else cellsInsert a v (cells.filter (fun p => p.1 ≠ a))

/-- `M[a]`, meant for `a` in `[0, N)` (R14). -/
def Memory.get (m : Memory) (a : Nat) : Word := cellsGet m.cells a

/-- `M[a] <- v`, meant for `a` in `[0, N)` (R14). -/
def Memory.set (m : Memory) (a : Nat) (v : Word) : Memory := { m with cells := cellsSet m.cells a v }

/-- The pairs of consecutive words from address `base` on, words equal to the unlisted value left out. -/
def cellsFrom : Nat → List Word → List (Nat × Word)
  | _, [] => []
  | base, v :: vs =>
    if v = Memory.unlisted then cellsFrom (base + 1) vs else (base, v) :: cellsFrom (base + 1) vs

/-- The memory that holds exactly the words of a program (R39). -/
def Memory.ofWords (prog : List Word) : Memory := { size := prog.length, cells := cellsFrom 0 prog }

/-- Consecutive writes from address `a` on. -/
def Memory.setWords : Memory → Nat → List Word → Memory
  | m, _, [] => m
  | m, a, v :: vs => (m.set a v).setWords (a + 1) vs

/-! ### Updates of the state, one field each -/

/-- Replace the memory. -/
def State.setMem (s : State) (m : Memory) : State := { s with mem := m }

/-- `pc <- t` (R14). -/
def State.setPc (s : State) (t : Nat) : State := { s with pc := t }

/-- `halted <- b` (R24). -/
def State.setHalted (s : State) (b : Bool) : State := { s with halted := b }

/-- `fault <- k` (R25). -/
def State.setFault (s : State) (k : Option FaultKind) : State := { s with fault := k }

/-- Replace the items that wait in the input channel (R37). -/
def State.setInput (s : State) (items : List InputItem) : State := { s with input := items }

/-- `OutPut(v)`: append `v` to the output channel; it never waits (R14, R38). -/
def State.outPut (s : State) (v : Word) : State := { s with output := s.output ++ [v] }

/-! ### Addresses and accesses -/

/-- `a` is in `[0, N)` (R52). -/
abbrev State.InBounds (s : State) (a : Int) : Prop := 0 ≤ a ∧ a < (s.mem.size : Int)

/-- `MemRead(a, 1)` (R14, R52). -/
def State.memRead (s : State) (a : Int) : Except FaultKind Word :=
  if s.InBounds a then .ok (s.mem.get a.toNat) else .error (.outOfBounds a)

/-- `MemWrite(a, 1, v)` (R14, R52, R97). -/
def State.memWrite (s : State) (a : Int) (v : Word) : Except FaultKind State :=
  if s.InBounds a then .ok (s.setMem (s.mem.set a.toNat v)) else .error (.outOfBounds a)

/-- `pc <- pc + n`, the fall-through of an instruction of `n` words (R98). -/
def State.advance (s : State) (n : Nat) : State := s.setPc (s.pc + n)

/-- `pc <- t` of a taken jump, its target checked (R122). -/
def State.jumpTo (s : State) (t : Word) : Except FaultKind State :=
  if s.InBounds t then .ok (s.setPc t.toNat) else .error (.outOfBounds t)

/-! ### Raising a fault -/

/-- `raise K(info)` (R140): the fault register takes the kind and payload; memory, pc, `halted` and the channels stay as
they are in the state the fault is raised from. Nothing vectors and nothing returns (R147, R148). -/
def State.raise (s : State) (k : FaultKind) : Outcome := .next (s.setFault (some k))

/-- The end of a step whose effects are `r`: they all happen, or the fault is raised from `s` and none of them happens
(R16, R140). -/
def State.commit (s : State) (r : Except FaultKind State) : Outcome :=
  match r with
  | .ok t => .next t
  | .error k => s.raise k

/-! ### Fetching an instruction -/

/-- The fault a decode failure raises (R93, R136, R137). -/
def FaultKind.ofDecode : DecodeFailure → FaultKind
  | .unknownOpcode opc => .unknownOpcode opc
  | .invalidAddressingMode d => .invalidAddressingMode d

/-- `raw_k <- MemRead(pc + 1 + k, 1)` (R94). -/
def State.operandCell (s : State) (k : Nat) : Except FaultKind Word := s.memRead ((s.pc + 1 + k : Nat) : Int)

/-- Fetch the instruction word, decode it, fetch the operand cells (R90, R92, R93, R94). -/
def State.fetch (s : State) : Except FaultKind Instr := do
  let w ← s.memRead (s.pc : Int)
  match decode s.cfg w with
  | .error f => .error (FaultKind.ofDecode f)
  | .ok h => h.assemble s.operandCell

/-! ### Placing an instruction for the next step -/

/-- The state in which `ws` stand from `pc` on and the machine is not stopped: memory is long enough for them. It stands
for a load of a program that holds these words there (notes/assumptions/7.md); no step of the machine does this. -/
def State.placeWords (s : State) (ws : List Word) : State :=
  { s with
    mem := ({ s.mem with size := max s.mem.size (s.pc + ws.length) } : Memory).setWords s.pc ws
    halted := false
    fault := none }

end Sys2Proof.Machine
end

