-- ==== Sys2Proof/Machine/Operands.lean ====
section
/-! DEFINITION. The addressing-mode multiplexer (spec/40_engine.md R95): every operand form of the instruction set. A write
operand has no form of its own, since its raw word is the address (R97). -/

namespace Sys2Proof.Machine

/-- `val(raw, mode)`: Position reads the cell the raw word names, Immediate is the raw word (R95). -/
def State.val (s : State) (o : ReadOperand) : Except FaultKind Word :=
  match o.mode with
  | .position => s.memRead o.raw
  | .immediate => .ok o.raw

end Sys2Proof.Machine
end

