-- ==== Sys2Proof/Machine/Flags.lean ====
section
/-! DEFINITION. The status state and the ALU. The block has no condition codes (spec/10_state.md R27): a comparison's result
is a word, and the only flags are `halted` and the fault register. The ALU is spec/40_engine.md R101 to R105. -/

namespace Sys2Proof.Machine

/-! ### Status -/

/-- The machine is stopped: halted or faulted (R26). -/
abbrev State.Stopped (s : State) : Prop := s.halted = true ∨ s.fault ≠ none

/-- The cause code of a fault kind on the status interface (R135, D25). -/
def FaultKind.code : FaultKind → Nat
  | .unknownOpcode _ => 1
  | .invalidAddressingMode _ => 2
  | .outOfBounds _ => 3
  | .inputParseFailure => 4
  | .arithmeticOverflow => 5

/-- The payload of a fault kind on the status interface (R135). -/
def FaultKind.payload : FaultKind → Option Int
  | .unknownOpcode opc => some opc
  | .invalidAddressingMode d => some (d : Int)
  | .outOfBounds a => some a
  | .inputParseFailure => none
  | .arithmeticOverflow => none

/-- The cause code the host sees: 0 where the fault register holds `None` (R135). -/
def State.causeCode (s : State) : Nat :=
  match s.fault with
  | none => 0
  | some k => k.code

/-! ### The ALU -/

/-- The result of `ALU_ADD` or `ALU_MUL` from the exact integer `r`: `r` where it is in range, else what
`OVERFLOW_POLICY` says (R103). -/
def narrow (cfg : Config) (r : Int) : Except FaultKind Word :=
  if InRange cfg.wordBits r then .ok r
  else
    match cfg.overflow with
    | .fault => .error .arithmeticOverflow
    | .wrap => .ok (wrapWord cfg.wordBits r)

/-- `ALU_ADD(x, y)` (R101). -/
def aluAdd (cfg : Config) (x y : Int) : Except FaultKind Word := narrow cfg (x + y)

/-- `ALU_MUL(x, y)` (R102). -/
def aluMul (cfg : Config) (x y : Int) : Except FaultKind Word := narrow cfg (x * y)

/-- `ALU_LT(x, y)`: 1 if `x < y` as signed integers, else 0 (R104). -/
def aluLt (x y : Int) : Word := if x < y then 1 else 0

/-- `ALU_EQ(x, y)`: 1 if `x = y`, else 0 (R105). -/
def aluEq (x y : Int) : Word := if x = y then 1 else 0

end Sys2Proof.Machine
end

