-- ==== Sys2Proof/Machine/Arithmetic.lean ====
section
/-! DEFINITION. Add and Mul (spec/41_arithmetic.md). -/

namespace Sys2Proof.Machine

/-- Add (R110). -/
def execAdd (a b : ReadOperand) (dst : Word) (s : State) : Outcome :=
  s.commit (do
    let x ← s.val a
    let y ← s.val b
    let r ← aluAdd s.cfg x y
    let t ← s.memWrite dst r
    return t.advance 4)

/-- Mul (R111). -/
def execMul (a b : ReadOperand) (dst : Word) (s : State) : Outcome :=
  s.commit (do
    let x ← s.val a
    let y ← s.val b
    let r ← aluMul s.cfg x y
    let t ← s.memWrite dst r
    return t.advance 4)

end Sys2Proof.Machine
end

