-- ==== Sys2Proof/Machine/Compare.lean ====
section
/-! DEFINITION. LessThan and Equals (spec/44_compare.md). -/

namespace Sys2Proof.Machine

/-- LessThan (R125). -/
def execLessThan (a b : ReadOperand) (dst : Word) (s : State) : Outcome :=
  s.commit (do
    let x ← s.val a
    let y ← s.val b
    let t ← s.memWrite dst (aluLt x y)
    return t.advance 4)

/-- Equals (R126). -/
def execEquals (a b : ReadOperand) (dst : Word) (s : State) : Outcome :=
  s.commit (do
    let x ← s.val a
    let y ← s.val b
    let t ← s.memWrite dst (aluEq x y)
    return t.advance 4)

end Sys2Proof.Machine
end

