-- ==== Sys2Proof/Machine/Halt.lean ====
section
/-! DEFINITION. Halt (spec/45_halt.md). -/

namespace Sys2Proof.Machine

/-- Halt (R130): `halted <- true`; pc and memory unchanged. -/
def execHalt (s : State) : Outcome := .next (s.setHalted true)

end Sys2Proof.Machine
end

