-- ==== Sys2Proof/Machine/InputOutput.lean ====
section
/-! DEFINITION. In and Out (spec/42_io.md). -/

namespace Sys2Proof.Machine

/-- The word an input item delivers, or the fault it raises (R115, R139). -/
def InputItem.word : InputItem → Except FaultKind Word
  | .value v => .ok v
  | .malformed => .error .inputParseFailure

/-- In (R115). On an empty channel it waits: the step has not happened and the state is as it was (R33;
notes/assumptions/9.md). Otherwise the head item is taken first, and stays taken where a fault is raised (R140). -/
def execInput (dst : Word) (s : State) : Outcome :=
  match s.input with
  | [] => .next s
  | item :: rest =>
    (s.setInput rest).commit (do
      let v ← item.word
      let t ← (s.setInput rest).memWrite dst v
      return t.advance 2)

/-- Out (R116). -/
def execOutput (a : ReadOperand) (s : State) : Outcome :=
  s.commit (do
    let x ← s.val a
    return (s.outPut x).advance 2)

end Sys2Proof.Machine
end

