-- ==== Sys2Proof/Machine/Jumps.lean ====
section
/-! DEFINITION. JumpIfTrue and JumpIfFalse (spec/43_jumps.md). Both resolve the target before they look at the condition,
taken or not (spec/40_engine.md R96). -/

namespace Sys2Proof.Machine

/-- JumpIfTrue (R120). With a Position target it is R123's indirect jump (whose example word 1005 has an Immediate target by
R64: notes/assumptions/21.md). -/
def execJumpIfTrue (a target : ReadOperand) (s : State) : Outcome :=
  s.commit (do
    let c ← s.val a
    let t ← s.val target
    if c ≠ 0 then s.jumpTo t else .ok (s.advance 3))

/-- JumpIfFalse (R121). -/
def execJumpIfFalse (a target : ReadOperand) (s : State) : Outcome :=
  s.commit (do
    let c ← s.val a
    let t ← s.val target
    if c = 0 then s.jumpTo t else .ok (s.advance 3))

end Sys2Proof.Machine
end

