-- ==== Sys2Proof/Machine/Step.lean ====
section
/-! DEFINITION. The step (spec/40_engine.md R90). -/

namespace Sys2Proof.Machine

/-- `Step()` (R90): a stopped machine has no step (R91); otherwise fetch, decode and operand cells, then the opcode's
arm. A failure of the fetch raises its fault (R92, R93, R94). -/
def step (s : State) : Host.Outcome State Fault Refusal :=
  if s.halted then .fault .halted
  else
    match s.fault with
    | some k => .fault (.faulted k)
    | none =>
      match s.fetch with
      | .error k => s.raise k
      | .ok i => exec i s

/-- The state whose next step runs the instruction in a row of bits: its words stand at `pc`, memory is long enough for
the longest instruction, and the machine is not stopped. It stands for the load (notes/assumptions/7.md). -/
def State.withFetchWord (s : State) (nbits w : Nat) : State := s.placeWords (tableWords s.cfg.wordBits nbits w)

end Sys2Proof.Machine
end

