-- ==== Sys2Proof/Machine/HostOps.lean ====
section
/-! DEFINITION. The host's requests to the block (spec/10_state.md section 6): `load`, `hostRead`, `hostWrite`, the supply
of an input item, `step()` and `run()`. A refused request answers `none` and changes nothing. Requests are served between
steps, in the order the host issues them (spec/20_memory.md R49, R62). -/

namespace Sys2Proof.Machine

/-- `load(prog)` (R39): refused where the program is longer than `N_MAX` or a word is out of range. It sets `N`, `M`, `pc`,
`halted` and `fault`, whatever the state was; the channels are the host's own (R159). -/
def State.load (s : State) (prog : List Int) : Option State :=
  if prog.length ≤ s.cfg.nMax ∧ ∀ v ∈ prog, InRange s.cfg.wordBits v then
    some { s with mem := Memory.ofWords prog, pc := 0, halted := false, fault := none }
  else none

/-- `hostRead(a)` (R41). -/
def State.hostRead (s : State) (a : Int) : Option Word :=
  if s.InBounds a then some (s.mem.get a.toNat) else none

/-- `hostWrite(a, v)` (R41). -/
def State.hostWrite (s : State) (a v : Int) : Option State :=
  if s.InBounds a ∧ InRange s.cfg.wordBits v then some (s.setMem (s.mem.set a.toNat v)) else none

/-- An item the channel can carry: a value is a `W`-bit integer (R37). -/
abbrev InputItem.InRange (W : Nat) : InputItem → Prop
  | .value v => Sys2Proof.InRange W v
  | .malformed => True

/-- What the adaptor delivers for a line that parses as the integer `n`, or does not parse at all: a number outside the
`W`-bit range is `Malformed` too (R37). -/
def InputItem.ofLine (W : Nat) : Option Int → InputItem
  | some n => if Sys2Proof.InRange W n then .value n else .malformed
  | none => .malformed

/-- The host supplies the line's item: it joins the end of the FIFO (R37). -/
def State.supply (s : State) (line : Option Int) : State :=
  s.setInput (s.input ++ [InputItem.ofLine s.cfg.wordBits line])

/-- `step()` as the host requests it (R42): on a stopped machine it performs nothing and changes nothing. -/
def State.hostStep (s : State) : State :=
  match step s with
  | .next t => t
  | .fault _ => s
  | .refused _ => s

/-- What `run()` returns (R43). -/
inductive RunResult where
  /-- `Ok(M)`, the final memory. -/
  | ok (m : Memory)
  /-- `Err(fault)`. -/
  | err (k : FaultKind)
  /-- The fuel ran out: no conclusion, neither a halt nor a fault (R165). -/
  | noConclusion
  deriving DecidableEq, Repr

/-- What a run that ends in this state returns (R43, R131). -/
def State.conclusion (s : State) : RunResult :=
  if s.halted then .ok s.mem
  else
    match s.fault with
    | some k => .err k
    | none => .noConclusion

/-- `run()` under fuel (R43, R165): repeat `step()` until the machine is stopped. -/
def State.runFor : Nat → State → RunResult
  | 0, s => s.conclusion
  | fuel + 1, s => if s.Stopped then s.conclusion else s.hostStep.runFor fuel

/-- The requests that can change the block or its channels (R36). -/
inductive HostRequest where
  | load (prog : List Int)
  | hostWrite (a v : Int)
  | supply (line : Option Int)
  | step
  deriving DecidableEq, Repr

/-- The state after a request; a refused request changes nothing (R39, R41). -/
def State.serve (s : State) : HostRequest → State
  | .load prog => (s.load prog).getD s
  | .hostWrite a v => (s.hostWrite a v).getD s
  | .supply line => s.supply line
  | .step => s.hostStep

end Sys2Proof.Machine
end

