-- ==== Sys2Proof/Safety.lean ====
section
/-! DEFINITION. What claims are stated in: the well-formed states, and the states a host can bring a machine to. -/

namespace Sys2Proof.Machine

/-- The payload of a fault is as R25 says: an opcode pair in `[-99, 99]`, a digit in `[0, 9]`, a `W`-bit address or `N`;
`ArithmeticOverflow` exists only under `OVERFLOW_POLICY = fault`. -/
abbrev FaultKind.Wf (cfg : Config) (N : Nat) : FaultKind → Prop
  | .unknownOpcode opc => -99 ≤ opc ∧ opc ≤ 99
  | .invalidAddressingMode d => d ≤ 9
  | .outOfBounds a => InRange cfg.wordBits a ∨ a = (N : Int)
  | .inputParseFailure => True
  | .arithmeticOverflow => cfg.overflow = .fault

/-- A well-formed state: what the spec says of every state the block can be in.
- the parameters are possible ones (R7), and `N <= N_MAX` (R39);
- memory is in canonical form, and every cell is a `W`-bit word (R6, R30);
- `pc` is in `[0, N]` (R22);
- a faulted machine is not halted (R140), and its payload is as R25 says;
- every input value and every output value is a `W`-bit word (R37, R38). -/
structure State.Wf (s : State) : Prop where
  cfg : s.cfg.Wf
  size : s.mem.size ≤ s.cfg.nMax
  mem : s.mem.wf
  words : ∀ p ∈ s.mem.cells, InRange s.cfg.wordBits p.2
  pc : s.pc ≤ s.mem.size
  precise : ∀ k, s.fault = some k → s.halted = false ∧ k.Wf s.cfg s.mem.size
  input : ∀ item ∈ s.input, item.InRange s.cfg.wordBits
  output : ∀ v ∈ s.output, InRange s.cfg.wordBits v

/-- The states a host can bring a machine with parameters `cfg` to (R158, R160): a run starts from a `load`, and goes on by
requests. The channels start empty. -/
inductive Reachable (cfg : Config) : State → Prop where
  | loaded (s : State) (prog : List Int) (t : State) (hcfg : s.cfg = cfg) (hin : s.input = []) (hout : s.output = [])
      (hload : s.load prog = some t) : Reachable cfg t
  | served (s : State) (r : HostRequest) (h : Reachable cfg s) : Reachable cfg (s.serve r)

/-- A run is safe where it has not faulted; it is complete where it has halted (R26, R43). -/
abbrev State.Safe (s : State) : Prop := s.fault = none

end Sys2Proof.Machine
end

