-- ==== Sys2Proof/Certificates/Slice0/Obligations.lean ====
section
/-! DEFINITION. The statements for the provers. Each docstring names the rules of spec/ it formalises.

The words used in them stand first. They are written from the spec and not from the model's operations: what a read
operand's value is (`Resolves`), what a store changes (`Stores`), what raising a fault changes (`Raises`), what the ALU's
result is (`AluResult`), and which mode digits are accepted (`Accepted`). -/

namespace Sys2Proof.Claims

open Sys2Proof.Machine

/-- The read operand `o` has the value `v`: in Position mode its raw word is an address of memory and `v` is the word
there; in Immediate mode `v` is the raw word (R69, R95). -/
def Resolves (s : State) (o : ReadOperand) (v : Int) : Prop :=
  match o.mode with
  | .position => ∃ a : Nat, o.raw = (a : Int) ∧ a < s.mem.size ∧ v = s.mem.get a
  | .immediate => v = o.raw

/-- `a` is an address of memory, in `[0, N)` (R52). -/
abbrev Address (s : State) (a : Int) : Prop := 0 ≤ a ∧ a < (s.mem.size : Int)

/-- The read operand `o` cannot be resolved: it is in Position mode and its raw word is no address of memory (R95). -/
def Unresolvable (s : State) (o : ReadOperand) : Prop := o.mode = .position ∧ ¬ Address s o.raw

/-- From `s` to `t` exactly the cell `dst` is written, with `v`: every other address reads as before and `N` stays. -/
def Stores (s t : State) (dst v : Int) : Prop :=
  t.mem.size = s.mem.size ∧ ∀ a : Nat, t.mem.get a = if (a : Int) = dst then v else s.mem.get a

/-- No cell is written: the memory is the same, and every address reads as before. -/
def StoresNothing (s t : State) : Prop := t.mem = s.mem ∧ ∀ a : Nat, t.mem.get a = s.mem.get a

/-- `halted`, the fault register and the parameters are as before. -/
def SameStatus (s t : State) : Prop := t.halted = s.halted ∧ t.fault = s.fault ∧ t.cfg = s.cfg

/-- The outcome is that fault `k` is raised from `s`: the next state is `s` with the fault register holding `k` (R140). -/
def Raises (o : Outcome) (s : State) (k : FaultKind) : Prop := o = .next { s with fault := some k }

/-- The ALU's result from the exact integer `e` is `r`: `e` where it is in range; under `wrap` otherwise, the in-range
integer congruent to `e` modulo `2^W` (R13, R101 to R103). -/
def AluResult (cfg : Config) (e r : Int) : Prop :=
  (InRange cfg.wordBits e ∧ r = e) ∨
    (¬ InRange cfg.wordBits e ∧ cfg.overflow = .wrap ∧ 1 ≤ cfg.wordBits ∧ InRange cfg.wordBits r ∧
      ((2 ^ cfg.wordBits : Nat) : Int) ∣ r - e)

/-- A mode digit the variant accepts: 0, and 1 in the extended set (R69, R75). -/
abbrev Accepted (v : Variant) (d : Nat) : Prop := d = 0 ∨ (d = 1 ∧ v = .extended)

/-- The mode an accepted digit selects (R69). -/
def modeFor (d : Nat) : Mode := if d = 1 then .immediate else .position

/-- The mode digit of an addressing mode (R69). -/
def digitFor : Mode → Nat
  | .position => 0
  | .immediate => 1

/-- The canonical instruction word: `opc + 100*d_0 + 1000*d_1` over the modes of the read operands, the digit of a write
operand and every absent digit 0 (R66, R78). -/
def canonicalWordFor : Instr → Nat
  | .add a b _ => 1 + 100 * digitFor a.mode + 1000 * digitFor b.mode
  | .mul a b _ => 2 + 100 * digitFor a.mode + 1000 * digitFor b.mode
  | .input _ => 3
  | .output a => 4 + 100 * digitFor a.mode
  | .jumpIfTrue a target => 5 + 100 * digitFor a.mode + 1000 * digitFor target.mode
  | .jumpIfFalse a target => 6 + 100 * digitFor a.mode + 1000 * digitFor target.mode
  | .lessThan a b _ => 7 + 100 * digitFor a.mode + 1000 * digitFor b.mode
  | .equals a b _ => 8 + 100 * digitFor a.mode + 1000 * digitFor b.mode
  | .halt => 99

/-- The mode digit at position `k` of a non-negative word: decimal digit `k + 2` (R64). -/
def modeDigitAt (w : Int) (k : Nat) : Nat := w.toNat / 10 ^ (k + 2) % 10

/-- The mode digit positions `Decode` examines for an operation: those below the arity, and all of them under `validate`
(R72, R73). -/
abbrev Examined (cfg : Config) (op : Opcode) (k : Nat) : Prop := k < op.arity ∨ cfg.unusedDigits = .validate

/-- The address an instruction writes to, where it has a write operand (R66, R97). -/
def destination : Instr → Option Int
  | .add _ _ dst => some dst
  | .mul _ _ dst => some dst
  | .input dst => some dst
  | .output _ => none
  | .jumpIfTrue _ _ => none
  | .jumpIfFalse _ _ => none
  | .lessThan _ _ dst => some dst
  | .equals _ _ dst => some dst
  | .halt => none

/-- What Add, Mul, LessThan and Equals have in common: `i` reads `a` and `b`, resolves them in order, and stores to
`dst`. The first read operand that cannot be resolved raises (R96, R144). -/
def SourcesInOrder (i : Instr) (a b : ReadOperand) (s : State) : Prop :=
  (Unresolvable s a → Raises (exec i s) s (.outOfBounds a.raw)) ∧
  (∀ x, Resolves s a x → Unresolvable s b → Raises (exec i s) s (.outOfBounds b.raw))

/-- The end of an instruction that stores `r` to `dst` and falls through by `n` words: out of range it raises, else the
cell holds `r`, `pc` has advanced and nothing else has changed. -/
def StoresAndAdvances (i : Instr) (s : State) (dst r : Int) (n : Nat) : Prop :=
  (¬ Address s dst → Raises (exec i s) s (.outOfBounds dst)) ∧
  (Address s dst → ∃ t, exec i s = .next t ∧ Stores s t dst r ∧ t.pc = s.pc + n ∧ SameStatus s t ∧
    t.input = s.input ∧ t.output = s.output)

/-- The end of a conditional jump to `target` that is taken or not: a taken jump goes to the target, which is checked, and
one not taken falls through; nothing else changes. -/
def JumpsOrFallsThrough (i : Instr) (s : State) (taken : Prop) (target : Int) : Prop :=
  (taken → ¬ Address s target → Raises (exec i s) s (.outOfBounds target)) ∧
  (taken → Address s target → ∃ t, exec i s = .next t ∧ (t.pc : Int) = target ∧ StoresNothing s t ∧ SameStatus s t ∧
    t.input = s.input ∧ t.output = s.output) ∧
  (¬ taken → ∃ t, exec i s = .next t ∧ t.pc = s.pc + 3 ∧ StoresNothing s t ∧ SameStatus s t ∧
    t.input = s.input ∧ t.output = s.output)

/-- The machine is not stopped (R26). -/
abbrev Running (s : State) : Prop := s.halted = false ∧ s.fault = none

/-- The words `ws` stand in memory from `pc` on. -/
def WordsAtPc (s : State) (ws : List Int) : Prop :=
  s.pc + ws.length ≤ s.mem.size ∧ ∀ k (h : k < ws.length), s.mem.get (s.pc + k) = ws[k]

end Sys2Proof.Claims

open Sys2Proof Sys2Proof.Machine Sys2Proof.Claims

/-! ### Encoding -/

/-- Decode and encode agree: every well-formed instruction, with every mode and every raw operand the parameters admit,
comes back from its words, whatever words follow; and the first of its words is the canonical one, with dst digit 0
(spec/30_encoding.md R73, R76, R78). -/
def Obligations.DecodeOfEncodeIsTheInstruction : Prop :=
  (∀ (cfg : Config) (i : Instr) (rest : List Word), i.WellFormed cfg →
    decodeWords cfg (encode i ++ rest) = .ok (i, rest)) ∧
  ∀ i : Instr, encode i = (canonicalWordFor i : Int) :: i.raws

/-- The decoded words of the table of R77, every row of it, and its last two rows under `validate` too. -/
def Obligations.TableOfDecodedWords : Prop :=
  let d := decode Config.standard
  let v := decode { Config.standard with unusedDigits := .validate }
  d 1 = .ok (.add .position .position) ∧ d 2 = .ok (.mul .position .position) ∧
  d 101 = .ok (.add .immediate .position) ∧ d 1002 = .ok (.mul .position .immediate) ∧
  d 1101 = .ok (.add .immediate .immediate) ∧ d 11101 = .ok (.add .immediate .immediate) ∧
  d 3 = .ok .input ∧ d 103 = .ok .input ∧ d 4 = .ok (.output .position) ∧ d 104 = .ok (.output .immediate) ∧
  d 1105 = .ok (.jumpIfTrue .immediate .immediate) ∧ d 6 = .ok (.jumpIfFalse .position .position) ∧
  d 1107 = .ok (.lessThan .immediate .immediate) ∧ d 108 = .ok (.equals .immediate .position) ∧ d 99 = .ok .halt ∧
  d 0 = .error (.unknownOpcode 0) ∧ d 9 = .error (.unknownOpcode 9) ∧ d 100 = .error (.unknownOpcode 0) ∧
  d 98 = .error (.unknownOpcode 98) ∧ d 201 = .error (.invalidAddressingMode 2) ∧
  d 30001 = .error (.invalidAddressingMode 3) ∧ d 12101 = .error (.invalidAddressingMode 2) ∧
  d 3401 = .error (.invalidAddressingMode 4) ∧ d (-1) = .error (.unknownOpcode (-1)) ∧
  d (-101) = .error (.unknownOpcode (-1)) ∧ d 20099 = .ok .halt ∧ v 20099 = .error (.invalidAddressingMode 2) ∧
  d 10099 = .ok .halt ∧ v 10099 = .ok .halt

/-- Which words decode and why the others fail (R136, R137): no valid opcode pair raises `UnknownOpcode`; otherwise the
lowest examined digit that is not accepted raises `InvalidAddressingMode`; otherwise the word decodes to its opcode. -/
def Obligations.DecodeFailsExactlyOnIllegalWords : Prop :=
  ∀ (cfg : Config) (w : Int),
    ((∀ op ∈ validOpcodes cfg.variant, w.tmod 100 ≠ (op.number : Int)) →
      decode cfg w = .error (.unknownOpcode (w.tmod 100))) ∧
    (∀ op ∈ validOpcodes cfg.variant, w.tmod 100 = (op.number : Int) →
      (∀ k, Examined cfg op k → ¬ Accepted cfg.variant (modeDigitAt w k) →
        (∀ j < k, Accepted cfg.variant (modeDigitAt w j)) →
        decode cfg w = .error (.invalidAddressingMode (modeDigitAt w k))) ∧
      ((∀ k, Examined cfg op k → Accepted cfg.variant (modeDigitAt w k)) →
        ∃ h, decode cfg w = .ok h ∧ h.opcode = op))

/-- R65: every negative word raises `UnknownOpcode(w rem 100)`, the remainder truncated toward zero, in `[-99, 0]`. -/
def Obligations.NegativeWordsAreUnknownOpcodes : Prop :=
  (∀ (cfg : Config) (w : Int), w < 0 →
    ∃ opc : Int, -99 ≤ opc ∧ opc ≤ 0 ∧ (100 : Int) ∣ w - opc ∧ decode cfg w = .error (.unknownOpcode opc)) ∧
  decode Config.standard (-1) = .error (.unknownOpcode (-1)) ∧
  decode Config.standard (-100) = .error (.unknownOpcode 0)

/-- R75: under `reduced` the opcode pairs 3 to 8 raise `UnknownOpcode`, a mode digit 1 on an operand raises
`InvalidAddressingMode(1)` (as the lowest digit that is not 0), and what decodes decodes alike under `extended`. -/
def Obligations.ReducedSetIsAStrictSubset : Prop :=
  ∀ (cfg : Config) (w : Int),
    (3 ≤ w.tmod 100 → w.tmod 100 ≤ 8 →
      decode { cfg with variant := .reduced } w = .error (.unknownOpcode (w.tmod 100))) ∧
    (w.tmod 100 = 1 ∨ w.tmod 100 = 2 → ∀ k < 3, modeDigitAt w k = 1 → (∀ j < k, modeDigitAt w j = 0) →
      decode { cfg with variant := .reduced } w = .error (.invalidAddressingMode 1)) ∧
    (∀ h, decode { cfg with variant := .reduced } w = .ok h → decode { cfg with variant := .extended } w = .ok h)

/-- R72: under `ignore` the digits at or above the arity are not examined, so a word decodes as its digits below them do;
under `validate` the lowest of them that the variant does not accept raises. 99, 199 and 20099 are Halt under `ignore`,
and 20099 raises `InvalidAddressingMode(2)` under `validate`. -/
def Obligations.UnusedModeDigits : Prop :=
  (∀ (cfg : Config) (w : Int) (op : Opcode), 0 ≤ w → op ∈ validOpcodes cfg.variant → w % 100 = (op.number : Int) →
    (cfg.unusedDigits = .ignore → decode cfg w = decode cfg (w % 10 ^ (op.arity + 2))) ∧
    (cfg.unusedDigits = .validate → (∀ k < op.arity, Accepted cfg.variant (modeDigitAt w k)) →
      ∀ k, op.arity ≤ k → ¬ Accepted cfg.variant (modeDigitAt w k) →
        (∀ j, op.arity ≤ j → j < k → Accepted cfg.variant (modeDigitAt w j)) →
        decode cfg w = .error (.invalidAddressingMode (modeDigitAt w k)))) ∧
  decode Config.standard 99 = .ok .halt ∧ decode Config.standard 199 = .ok .halt ∧
  decode Config.standard 20099 = .ok .halt ∧
  decode { Config.standard with unusedDigits := .validate } 20099 = .error (.invalidAddressingMode 2)

/-- The dst digit of Add, Mul, LessThan, Equals (position 2) and In (position 0): 0 and 1 decode alike in the extended
set, and 2 to 9 raise where the digits before it are accepted (R71). That the destination is the raw word is in the
statements of those instructions. -/
def Obligations.DestinationDigitIsCheckedAndIgnored : Prop :=
  ∀ (cfg : Config) (w : Int) (p : Nat), cfg.variant = .extended → 0 ≤ w →
    ((p = 2 ∧ w % 100 ∈ [(1 : Int), 2, 7, 8]) ∨ (p = 0 ∧ w % 100 = 3)) → modeDigitAt w p = 0 →
    decode cfg (w + 10 ^ (p + 2)) = decode cfg w ∧
    ((∀ j < p, Accepted .extended (modeDigitAt w j)) → ∀ d : Nat, 2 ≤ d → d ≤ 9 →
      decode cfg (w + d * 10 ^ (p + 2)) = .error (.invalidAddressingMode d))

/-! ### The step -/

/-- A step runs the decoded instruction: where words that decode to `i` stand at `pc` and the machine is not stopped, the
step is `exec` of `i` and nothing around it (R90, R93, R94). -/
def Obligations.StepRunsTheDecodedInstruction : Prop :=
  ∀ (s : State) (i : Instr) (ws rest : List Word), Running s → WordsAtPc s ws → decodeWords s.cfg ws = .ok (i, rest) →
    step s = exec i s

/-- R91, R26: the machine has no step exactly where it is stopped, and then the stop names why; a step is never
refused. (Two forms are the model's choice: that a stop is `Outcome.fault`, notes/assumptions/10.md; and that an In that
waits on an empty channel, whose step has not happened by R33, answers a next state, notes/assumptions/9.md.) -/
def Obligations.NoStepExactlyWhereStopped : Prop :=
  ∀ s : State,
    (s.halted = true → step s = .fault .halted) ∧
    (∀ k, s.halted = false → s.fault = some k → step s = .fault (.faulted k)) ∧
    (Running s → ∃ t, step s = .next t) ∧
    (∀ r, step s ≠ .refused r)

/-- R92: a `pc` outside memory raises `OutOfBounds(pc)` before anything is decoded, `N = 0` included, and the only such
`pc` a machine reaches is `N`. -/
def Obligations.FetchOutsideMemoryRaises : Prop :=
  (∀ s : State, Running s → s.mem.size ≤ s.pc → Raises (step s) s (.outOfBounds (s.pc : Int))) ∧
  (∀ s : State, Running s → s.mem.size = 0 → s.pc = 0 → Raises (step s) s (.outOfBounds 0)) ∧
  (∀ (cfg : Config) (s : State), cfg.Wf → Reachable cfg s → s.mem.size ≤ s.pc → s.pc = s.mem.size)

/-- A decode failure of the word at `pc` surfaces its kind and payload (R93), and there is no further step (R91, R142).
(That the missing step is `Outcome.fault` with the fault's name is the model's choice: notes/assumptions/10.md.) -/
def Obligations.DecodeFailureIsFatal : Prop :=
  ∀ s : State, Running s → s.pc < s.mem.size →
    (∀ opc, decode s.cfg (s.mem.get s.pc) = .error (.unknownOpcode opc) → Raises (step s) s (.unknownOpcode opc)) ∧
    (∀ d, decode s.cfg (s.mem.get s.pc) = .error (.invalidAddressingMode d) →
      Raises (step s) s (.invalidAddressingMode d)) ∧
    (∀ f t, decode s.cfg (s.mem.get s.pc) = .error f → step s = .next t → step t = .fault (.faulted (FaultKind.ofDecode f)))

/-- R94: the first operand cell outside memory raises `OutOfBounds(pc+1+k)`; a fetch that succeeds gives `raw_k` as the
word at `pc+1+k`, and has `pc + n` at most `N - 1`, so that the fall-through address is at most `N`. -/
def Obligations.FirstMissingOperandCellRaises : Prop :=
  (∀ (s : State) (h : Header) (k : Nat), Running s → s.pc < s.mem.size → decode s.cfg (s.mem.get s.pc) = .ok h →
    k < h.opcode.arity → s.pc + k < s.mem.size → s.mem.size ≤ s.pc + 1 + k →
    Raises (step s) s (.outOfBounds ((s.pc + 1 + k : Nat) : Int))) ∧
  (∀ (s : State) (i : Instr), s.fetch = .ok i →
    i.raws.length = i.opcode.arity ∧ (∀ k (h : k < i.raws.length), i.raws[k] = s.mem.get (s.pc + 1 + k)) ∧
    s.pc + i.opcode.arity + 1 ≤ s.mem.size)

/-! ### One statement for each instruction -/

/-- R110, Add: its encoding under every parameter setting, and everything it does on every operand form: the sources in
order, the overflow fault, the write out of range, and otherwise the sum stored, `pc` advanced by 4, nothing else
changed. -/
def Obligations.AddFollowsItsRule : Prop :=
  (∀ (cfg : Config) (d0 d1 d2 : Nat), Accepted cfg.variant d0 → Accepted cfg.variant d1 → Accepted cfg.variant d2 →
    decode cfg ((1 + 100 * d0 + 1000 * d1 + 10000 * d2 : Nat) : Int) = .ok (.add (modeFor d0) (modeFor d1))) ∧
  (∀ (a b : ReadOperand) (dst : Int), (Instr.add a b dst).width = 4) ∧
  (∀ (a b : ReadOperand) (dst : Int) (s : State),
    SourcesInOrder (.add a b dst) a b s ∧
    ∀ x y : Int, Resolves s a x → Resolves s b y →
      (¬ InRange s.cfg.wordBits (x + y) → s.cfg.overflow = .fault →
        Raises (exec (.add a b dst) s) s .arithmeticOverflow) ∧
      (∀ r, AluResult s.cfg (x + y) r → StoresAndAdvances (.add a b dst) s dst r 4))

/-- R111, Mul: as Add, with the exact product. -/
def Obligations.MulFollowsItsRule : Prop :=
  (∀ (cfg : Config) (d0 d1 d2 : Nat), Accepted cfg.variant d0 → Accepted cfg.variant d1 → Accepted cfg.variant d2 →
    decode cfg ((2 + 100 * d0 + 1000 * d1 + 10000 * d2 : Nat) : Int) = .ok (.mul (modeFor d0) (modeFor d1))) ∧
  (∀ (a b : ReadOperand) (dst : Int), (Instr.mul a b dst).width = 4) ∧
  (∀ (a b : ReadOperand) (dst : Int) (s : State),
    SourcesInOrder (.mul a b dst) a b s ∧
    ∀ x y : Int, Resolves s a x → Resolves s b y →
      (¬ InRange s.cfg.wordBits (x * y) → s.cfg.overflow = .fault →
        Raises (exec (.mul a b dst) s) s .arithmeticOverflow) ∧
      (∀ r, AluResult s.cfg (x * y) r → StoresAndAdvances (.mul a b dst) s dst r 4))

/-- R115, In: its encoding (the dst digit checked, without effect), and what it does: on a `Malformed` item the parse
fault, with the item taken; on a value and a destination out of range `OutOfBounds`, with the item taken; otherwise the
value stored, the item taken, `pc` advanced by 2, nothing else changed. On an empty channel nothing happens (R33). (That
the waiting In answers a next state, the same one, is the model's choice: notes/assumptions/9.md.) -/
def Obligations.InFollowsItsRule : Prop :=
  (∀ (cfg : Config) (d0 : Nat), cfg.variant = .extended → d0 ≤ 1 →
    decode cfg ((3 + 100 * d0 : Nat) : Int) = .ok .input) ∧
  (∀ dst : Int, (Instr.input dst).width = 2) ∧
  (∀ (dst : Int) (s : State),
    (s.input = [] → exec (.input dst) s = .next s) ∧
    (∀ rest, s.input = .malformed :: rest →
      Raises (exec (.input dst) s) { s with input := rest } .inputParseFailure) ∧
    (∀ v rest, s.input = .value v :: rest →
      (¬ Address s dst → Raises (exec (.input dst) s) { s with input := rest } (.outOfBounds dst)) ∧
      (Address s dst → ∃ t, exec (.input dst) s = .next t ∧ Stores s t dst v ∧ t.pc = s.pc + 2 ∧ SameStatus s t ∧
        t.input = rest ∧ t.output = s.output)))

/-- R116, Out: its encoding, the fault of a Position operand out of range with nothing output, and otherwise the value
appended, `pc` advanced by 2, nothing else changed. -/
def Obligations.OutFollowsItsRule : Prop :=
  (∀ (cfg : Config) (d0 : Nat), cfg.variant = .extended → d0 ≤ 1 →
    decode cfg ((4 + 100 * d0 : Nat) : Int) = .ok (.output (modeFor d0))) ∧
  (∀ a : ReadOperand, (Instr.output a).width = 2) ∧
  (∀ (a : ReadOperand) (s : State),
    (Unresolvable s a → Raises (exec (.output a) s) s (.outOfBounds a.raw)) ∧
    (∀ x : Int, Resolves s a x → ∃ t, exec (.output a) s = .next t ∧ t.output = s.output ++ [x] ∧ t.pc = s.pc + 2 ∧
      StoresNothing s t ∧ SameStatus s t ∧ t.input = s.input))

/-- R120, JumpIfTrue: its encoding, both operands resolved in order whether the jump is taken or not, the target check of
a taken jump, and where `pc` goes; nothing else changes. -/
def Obligations.JumpIfTrueFollowsItsRule : Prop :=
  (∀ (cfg : Config) (d0 d1 : Nat), cfg.variant = .extended → d0 ≤ 1 → d1 ≤ 1 →
    decode cfg ((5 + 100 * d0 + 1000 * d1 : Nat) : Int) = .ok (.jumpIfTrue (modeFor d0) (modeFor d1))) ∧
  (∀ a target : ReadOperand, (Instr.jumpIfTrue a target).width = 3) ∧
  (∀ (a target : ReadOperand) (s : State),
    SourcesInOrder (.jumpIfTrue a target) a target s ∧
    ∀ c t : Int, Resolves s a c → Resolves s target t → JumpsOrFallsThrough (.jumpIfTrue a target) s (c ≠ 0) t)

/-- R121, JumpIfFalse: as JumpIfTrue, taken exactly on 0. -/
def Obligations.JumpIfFalseFollowsItsRule : Prop :=
  (∀ (cfg : Config) (d0 d1 : Nat), cfg.variant = .extended → d0 ≤ 1 → d1 ≤ 1 →
    decode cfg ((6 + 100 * d0 + 1000 * d1 : Nat) : Int) = .ok (.jumpIfFalse (modeFor d0) (modeFor d1))) ∧
  (∀ a target : ReadOperand, (Instr.jumpIfFalse a target).width = 3) ∧
  (∀ (a target : ReadOperand) (s : State),
    SourcesInOrder (.jumpIfFalse a target) a target s ∧
    ∀ c t : Int, Resolves s a c → Resolves s target t → JumpsOrFallsThrough (.jumpIfFalse a target) s (c = 0) t)

/-- R125, LessThan: its encoding, the sources in order, the write out of range, and otherwise exactly 1 or 0 stored by the
signed comparison, `pc` advanced by 4, nothing else changed. -/
def Obligations.LessThanFollowsItsRule : Prop :=
  (∀ (cfg : Config) (d0 d1 d2 : Nat), cfg.variant = .extended → d0 ≤ 1 → d1 ≤ 1 → d2 ≤ 1 →
    decode cfg ((7 + 100 * d0 + 1000 * d1 + 10000 * d2 : Nat) : Int) = .ok (.lessThan (modeFor d0) (modeFor d1))) ∧
  (∀ (a b : ReadOperand) (dst : Int), (Instr.lessThan a b dst).width = 4) ∧
  (∀ (a b : ReadOperand) (dst : Int) (s : State),
    SourcesInOrder (.lessThan a b dst) a b s ∧
    ∀ x y : Int, Resolves s a x → Resolves s b y →
      (x < y → StoresAndAdvances (.lessThan a b dst) s dst 1 4) ∧
      (y ≤ x → StoresAndAdvances (.lessThan a b dst) s dst 0 4))

/-- R126, Equals: as LessThan, with equality. -/
def Obligations.EqualsFollowsItsRule : Prop :=
  (∀ (cfg : Config) (d0 d1 d2 : Nat), cfg.variant = .extended → d0 ≤ 1 → d1 ≤ 1 → d2 ≤ 1 →
    decode cfg ((8 + 100 * d0 + 1000 * d1 + 10000 * d2 : Nat) : Int) = .ok (.equals (modeFor d0) (modeFor d1))) ∧
  (∀ (a b : ReadOperand) (dst : Int), (Instr.equals a b dst).width = 4) ∧
  (∀ (a b : ReadOperand) (dst : Int) (s : State),
    SourcesInOrder (.equals a b dst) a b s ∧
    ∀ x y : Int, Resolves s a x → Resolves s b y →
      (x = y → StoresAndAdvances (.equals a b dst) s dst 1 4) ∧
      (x ≠ y → StoresAndAdvances (.equals a b dst) s dst 0 4))

/-- R130, Halt: the words that are Halt, and under `validate` the one that raises; the step sets `halted`, leaves `pc`,
memory and everything else, and the machine then has no further step. (That the missing step is `Outcome.fault` with the
name `halted` is the model's choice: notes/assumptions/10.md.) -/
def Obligations.HaltFollowsItsRule : Prop :=
  (∀ cfg : Config, decode cfg 99 = .ok .halt) ∧
  (∀ (cfg : Config) (w : Int), cfg.unusedDigits = .ignore → 0 ≤ w → w % 100 = 99 → decode cfg w = .ok .halt) ∧
  (∀ (cfg : Config) (w : Int) (k : Nat), cfg.unusedDigits = .validate → 0 ≤ w → w % 100 = 99 →
    ¬ Accepted cfg.variant (modeDigitAt w k) → (∀ j < k, Accepted cfg.variant (modeDigitAt w j)) →
    decode cfg w = .error (.invalidAddressingMode (modeDigitAt w k))) ∧
  (Instr.halt.width = 1) ∧
  (∀ s : State, ∃ t, exec .halt s = .next t ∧ t.halted = true ∧ t.pc = s.pc ∧ StoresNothing s t ∧ t.fault = s.fault ∧
    t.cfg = s.cfg ∧ t.input = s.input ∧ t.output = s.output ∧ step t = .fault .halted)

/-! ### Overflow, waiting, the program counter -/

/-- R103: an exact result of Add or Mul out of range raises `ArithmeticOverflow` under `fault`, with no cell written and
`pc` unchanged; under `wrap` the result is `wrap_W`, the one in-range integer congruent to it modulo `2^W`. -/
def Obligations.OverflowFollowsThePolicy : Prop :=
  ∀ (a b : ReadOperand) (dst : Int) (s : State) (x y : Int), Resolves s a x → Resolves s b y →
    ∀ (i : Instr) (e : Int), (i = .add a b dst ∧ e = x + y) ∨ (i = .mul a b dst ∧ e = x * y) →
      ¬ InRange s.cfg.wordBits e →
      (s.cfg.overflow = .fault → ∃ t, exec i s = .next t ∧ t.fault = some .arithmeticOverflow ∧ StoresNothing s t ∧
        t.pc = s.pc) ∧
      (s.cfg.overflow = .wrap → 1 ≤ s.cfg.wordBits → Address s dst →
        ∃ t r, exec i s = .next t ∧ t.fault = s.fault ∧ Stores s t dst r ∧ InRange s.cfg.wordBits r ∧
          ((2 ^ s.cfg.wordBits : Nat) : Int) ∣ r - e ∧
          ∀ u : Int, InRange s.cfg.wordBits u → ((2 ^ s.cfg.wordBits : Nat) : Int) ∣ u - e → u = r)

/-- R33: an In step on an empty channel waits, however often it is tried: no cell is written, `pc` is unchanged, no item
is taken, the machine is not stopped. Once the host has supplied an item, the step is that of the instruction, and takes
the item. (That a waiting step is a next state that is the same state: notes/assumptions/9.md.) -/
def Obligations.InWaitsUntilAnItemIsSupplied : Prop :=
  ∀ (s : State) (dst : Int), Running s → s.fetch = .ok (.input dst) → s.input = [] →
    (∀ n : Nat, State.hostStep^[n] s = s) ∧ step s = .next s ∧
    (∀ line : Option Int, ∃ t, step (s.supply line) = .next t ∧ t.input = [] ∧ t ≠ s.supply line)

/-- A step sets `pc` only if nothing raised, and then as the instruction's class says (R98). (A waiting In has not
happened, R33; that `exec` then answers the same state, the first case of In's clause, is the model's choice:
notes/assumptions/9.md.) -/
def Obligations.ProgramCounterUpdate : Prop :=
  ∀ (s t : State) (i : Instr), s.fault = none → exec i s = .next t →
    (t.fault ≠ none → t.pc = s.pc) ∧
    (t.fault = none →
      match i with
      | .add _ _ _ => t.pc = s.pc + 1 + 3
      | .mul _ _ _ => t.pc = s.pc + 1 + 3
      | .lessThan _ _ _ => t.pc = s.pc + 1 + 3
      | .equals _ _ _ => t.pc = s.pc + 1 + 3
      | .input _ => (s.input = [] ∧ t = s) ∨ (s.input ≠ [] ∧ t.pc = s.pc + 1 + 1)
      | .output _ => t.pc = s.pc + 1 + 1
      | .jumpIfTrue a target => ∃ c p : Int, Resolves s a c ∧ Resolves s target p ∧
          (c ≠ 0 → (t.pc : Int) = p) ∧ (c = 0 → t.pc = s.pc + 3)
      | .jumpIfFalse a target => ∃ c p : Int, Resolves s a c ∧ Resolves s target p ∧
          (c = 0 → (t.pc : Int) = p) ∧ (c ≠ 0 → t.pc = s.pc + 3)
      | .halt => t.pc = s.pc)

/-- R99: `pc = N` comes from a fall-through of an instruction that ends in the last cell and completes normally; the next
step raises `OutOfBounds(N)`. A taken jump never sets `pc` outside memory. -/
def Obligations.FallThroughPastTheLastCell : Prop :=
  (∀ (s t : State), s.pc < s.mem.size → step s = .next t → s.mem.size ≤ t.pc →
    ∃ i, s.fetch = .ok i ∧ s.pc + i.width = s.mem.size ∧ t.pc = s.mem.size ∧ t.mem.size = s.mem.size ∧
      t.fault = none ∧ t.halted = false ∧ Raises (step t) t (.outOfBounds (s.mem.size : Int))) ∧
  (∀ (s t : State) (a target : ReadOperand) (c : Int), Resolves s a c → s.fault = none → t.fault = none →
    (c ≠ 0 ∧ exec (.jumpIfTrue a target) s = .next t) ∨ (c = 0 ∧ exec (.jumpIfFalse a target) s = .next t) →
    t.pc < s.mem.size)

/-! ### Faults -/

/-- R140: a step that raises leaves memory, `pc`, output and parameters exactly as they were, and `halted` false; the
input too, except that an In has taken its item. -/
def Obligations.FaultsArePrecise : Prop :=
  ∀ (s t : State) (k : FaultKind), step s = .next t → t.fault = some k →
    StoresNothing s t ∧ t.pc = s.pc ∧ t.output = s.output ∧ t.halted = false ∧ t.cfg = s.cfg ∧
    (t.input = s.input ∨
      ∃ dst item, s.fetch = .ok (.input dst) ∧ s.input = item :: t.input ∧
        ((item = .malformed ∧ k = .inputParseFailure) ∨ (¬ Address s dst ∧ k = .outOfBounds dst)))

/-- R142: once a fault is held the machine has no further step, no request but an accepted `load` clears or changes it, and
an accepted `load` clears it. -/
def Obligations.FaultsAreSticky : Prop :=
  ∀ (s : State) (k : FaultKind), s.fault = some k →
    (∀ t, step s ≠ .next t) ∧
    (∀ r : HostRequest, (∀ prog, r ≠ .load prog) → (s.serve r).fault = some k) ∧
    (∀ prog, s.load prog = none → (s.serve (.load prog)).fault = some k) ∧
    (∀ prog t, s.load prog = some t → t.fault = none ∧ t.halted = false)

/-- R144, the common step and a binary operation together: with several faults at once, the first in the spec's order is
reported. Fetch before decode, decode before operand cells, operand 0 before operand 1, overflow before the write. -/
def Obligations.FirstFaultIsReported : Prop :=
  ∀ s : State, Running s →
    (s.mem.size ≤ s.pc → Raises (step s) s (.outOfBounds (s.pc : Int))) ∧
    (s.pc < s.mem.size →
      (∀ f, decode s.cfg (s.mem.get s.pc) = .error f → Raises (step s) s (FaultKind.ofDecode f)) ∧
      (∀ m0 m1, decode s.cfg (s.mem.get s.pc) = .ok (.add m0 m1) →
        (s.mem.size < s.pc + 4 → Raises (step s) s (.outOfBounds (s.mem.size : Int))) ∧
        (s.pc + 4 ≤ s.mem.size →
          (Unresolvable s ⟨m0, s.mem.get (s.pc + 1)⟩ →
            Raises (step s) s (.outOfBounds (s.mem.get (s.pc + 1)))) ∧
          (∀ x, Resolves s ⟨m0, s.mem.get (s.pc + 1)⟩ x →
            (Unresolvable s ⟨m1, s.mem.get (s.pc + 2)⟩ →
              Raises (step s) s (.outOfBounds (s.mem.get (s.pc + 2)))) ∧
            (∀ y, Resolves s ⟨m1, s.mem.get (s.pc + 2)⟩ y → ¬ InRange s.cfg.wordBits (x + y) →
              s.cfg.overflow = .fault → Raises (step s) s .arithmeticOverflow) ∧
            (∀ y, Resolves s ⟨m1, s.mem.get (s.pc + 2)⟩ y → InRange s.cfg.wordBits (x + y) →
              ¬ Address s (s.mem.get (s.pc + 3)) → Raises (step s) s (.outOfBounds (s.mem.get (s.pc + 3))))))))

/-- R135, the codes and payloads of the status interface: the code the host sees is 0 exactly where there is no fault,
and otherwise that of the fault held. -/
def Obligations.CauseCodes : Prop :=
  (∀ s : State, s.causeCode = 0 ↔ s.fault = none) ∧
  (∀ (s : State) (k : FaultKind), s.fault = some k → s.causeCode = k.code) ∧
  (∀ v, (FaultKind.unknownOpcode v).code = 1 ∧ (FaultKind.unknownOpcode v).payload = some v) ∧
  (∀ d, (FaultKind.invalidAddressingMode d).code = 2 ∧ (FaultKind.invalidAddressingMode d).payload = some (d : Int)) ∧
  (∀ a, (FaultKind.outOfBounds a).code = 3 ∧ (FaultKind.outOfBounds a).payload = some a) ∧
  (FaultKind.inputParseFailure.code = 4 ∧ FaultKind.inputParseFailure.payload = none) ∧
  (FaultKind.arithmeticOverflow.code = 5 ∧ FaultKind.arithmeticOverflow.payload = none)

/-! ### Rules about the whole machine -/

/-- R108: a step that completes performs its instruction's effects and nothing more: at most one cell written, the
instruction's destination; at most one item taken, by In; at most one value output, by Out; `halted` set, by Halt. A step
that raises sets the fault register and nothing else, except that an In has taken its item. -/
def Obligations.StepPerformsNothingMore : Prop :=
  ∀ s t : State, step s = .next t →
    (t.fault = none →
      ∃ i, s.fetch = .ok i ∧ t.mem.size = s.mem.size ∧ t.cfg = s.cfg ∧
        (∀ a : Nat, destination i ≠ some (a : Int) → t.mem.get a = s.mem.get a) ∧
        (i.opcode ≠ .input → t.input = s.input) ∧
        (i.opcode = .input → t.input = s.input ∨ ∃ item, s.input = item :: t.input) ∧
        (i.opcode ≠ .output → t.output = s.output) ∧
        (i.opcode = .output → ∃ v, t.output = s.output ++ [v]) ∧
        (i.opcode ≠ .halt → t.halted = false) ∧
        (i.opcode = .halt → t.halted = true ∧ t.pc = s.pc)) ∧
    (∀ k, t.fault = some k → ∃ items, t = { s with fault := some k, input := items } ∧
      (items = s.input ∨ ∃ dst item, s.fetch = .ok (.input dst) ∧ s.input = item :: items))

/-- R24: `halted` is false after a load, only Halt sets it, and nothing but the next load clears it. -/
def Obligations.OnlyHaltHalts : Prop :=
  (∀ (s t : State) (prog : List Int), s.load prog = some t → t.halted = false) ∧
  (∀ (s : State) (r : HostRequest), s.halted = false → (s.serve r).halted = true →
    r = .step ∧ s.fetch = .ok .halt ∧ s.serve r = { s with halted := true }) ∧
  (∀ (s : State) (r : HostRequest), s.halted = true → (∀ prog, r ≠ .load prog) → (s.serve r).halted = true)

/-- R53: `N` stays constant from one load to the next, whatever a step or the host does, and a write at or above `N` raises
`OutOfBounds` and does not extend memory. -/
def Obligations.MemoryNeverGrows : Prop :=
  (∀ s t : State, step s = .next t → t.mem.size = s.mem.size) ∧
  (∀ (s : State) (r : HostRequest), (∀ prog, r ≠ .load prog) → (s.serve r).mem.size = s.mem.size) ∧
  (∀ (s : State) (a v : Int), (s.mem.size : Int) ≤ a →
    s.memWrite a v = .error (.outOfBounds a) ∧ s.hostWrite a v = none)

/-- No step and no request changes the parameters: the model's own arrangement, notes/assumptions/3.md. -/
def Obligations.ParametersNeverChange : Prop :=
  (∀ s t : State, step s = .next t → t.cfg = s.cfg) ∧ ∀ (s : State) (r : HostRequest), (s.serve r).cfg = s.cfg

/-- R109: a step reads nothing but `(N, M, pc, halted, fault)`, the parameters and, for In, the head of the input. Two
states that agree there make the same move: the same stop, or next states that agree again, with the same values added to
the outputs and the same number of items taken. -/
def Obligations.StepReadsNothingElse : Prop :=
  ∀ s u : State, u.cfg = s.cfg → u.mem = s.mem → u.pc = s.pc → u.halted = s.halted → u.fault = s.fault →
    (∀ dst, s.fetch = .ok (.input dst) → u.input.head? = s.input.head?) →
    (∀ r, step s = .fault r → step u = .fault r) ∧
    (∀ t, step s = .next t → ∃ v, step u = .next v ∧ v.cfg = t.cfg ∧ v.mem = t.mem ∧ v.pc = t.pc ∧
      v.halted = t.halted ∧ v.fault = t.fault ∧
      (∃ out, t.output = s.output ++ out ∧ v.output = u.output ++ out) ∧
      (∃ n, t.input = s.input.drop n ∧ v.input = u.input.drop n))

/-- R59: a word a step writes is what later fetches see, with nothing in between: a step that completes and stores to its
own next `pc` is followed by a step that decodes the stored word, and a step that stores to an operand cell of the next
instruction is followed by one that uses it. -/
def Obligations.StoresAreSeenByTheNextFetch : Prop :=
  ∀ (s t : State) (a b : ReadOperand) (dst x y r : Int), Running s → s.fetch = .ok (.add a b dst) →
    Resolves s a x → Resolves s b y → AluResult s.cfg (x + y) r → Address s dst → step s = .next t →
    (dst = (s.pc : Int) + 4 →
      (∀ f, decode s.cfg r = .error f → Raises (step t) t (FaultKind.ofDecode f)) ∧
      (decode s.cfg r = .ok .halt → step t = .next { t with halted := true })) ∧
    (dst = (s.pc : Int) + 5 → decode s.cfg (s.mem.get (s.pc + 4)) = .ok (.output .immediate) →
      ∃ u, step t = .next u ∧ u.output = s.output ++ [r])

/-- R60: a write into the instruction's own cells does not change the current step: whatever of its four cells an Add
overwrites, it stores the sum of the values read before and goes on at `pc + 4`. -/
def Obligations.OwnCellsAreReadBeforeTheWrite : Prop :=
  ∀ (s : State) (a b : ReadOperand) (dst x y r : Int) (k : Nat), Running s → s.fetch = .ok (.add a b dst) →
    Resolves s a x → Resolves s b y → AluResult s.cfg (x + y) r → k < 4 → dst = ((s.pc + k : Nat) : Int) →
    ∃ t, step s = .next t ∧ t.pc = s.pc + 4 ∧ t.mem.get (s.pc + k) = r ∧
      ∀ n : Nat, n ≠ s.pc + k → t.mem.get n = s.mem.get n

/-- Every step keeps the state well-formed: possible parameters, `N <= N_MAX`, memory in canonical form with every cell a
`W`-bit word, `pc` in `[0, N]`, a faulted machine not halted with a payload as R25 says, channels of `W`-bit words. From
every well-formed state, reachable or not. (The canonical form, `W >= 2` and the channels in `State` are the model's:
notes/assumptions/1.md, 5.md, 8.md.) -/
def Obligations.StepKeepsStatesWellFormed : Prop := ∀ s t : State, s.Wf → step s = .next t → t.Wf

/-- Every host request keeps the state well-formed: `load` (R39), `hostWrite` (R41), the supply of an item (R37) and
`step` (R42), from every well-formed state, reachable or not. (The canonical form, `W >= 2` and the channels in `State`
are the model's: notes/assumptions/1.md, 5.md, 8.md.) -/
def Obligations.HostRequestsKeepStatesWellFormed : Prop := ∀ (s : State) (r : HostRequest), s.Wf → (s.serve r).Wf

/-- Every state a host can bring a machine with possible parameters to, from any accepted load, is well-formed. (The
canonical form, `W >= 2`, the channels in `State` and that they start empty are the model's: notes/assumptions/1.md, 5.md,
8.md.) -/
def Obligations.ReachableStatesAreWellFormed : Prop := ∀ (cfg : Config) (s : State), cfg.Wf → Reachable cfg s → s.Wf

/-- The state after reset is well-formed, and it is what the load of the empty program leaves (the model's choice,
notes/assumptions/6.md, with the `N_MAX` of 4.md and the empty channels of 8.md); its first step raises `OutOfBounds(0)`
(R92, D28). (Of well-formedness, the canonical form and `W >= 2` are the model's: 1.md, 5.md.) -/
def Obligations.ResetStateIsTheEmptyLoad : Prop :=
  State.reset.Wf ∧ State.reset.load [] = some State.reset ∧ Raises (step State.reset) State.reset (.outOfBounds 0)

/-! ### The host interface -/

/-- What `load` refuses, and what it sets where it does not (R39, R159). A refused load changes nothing. (That a load
leaves the waiting input items and the output as they were is the model's choice: notes/assumptions/8.md. The spec says
that the channels are not block state.) -/
def Obligations.LoadSetsEveryPieceOfState : Prop :=
  ∀ (s : State) (prog : List Int),
    ((s.cfg.nMax < prog.length ∨ ∃ v ∈ prog, ¬ InRange s.cfg.wordBits v) →
      s.load prog = none ∧ s.serve (.load prog) = s) ∧
    (prog.length ≤ s.cfg.nMax → (∀ v ∈ prog, InRange s.cfg.wordBits v) →
      ∃ t, s.load prog = some t ∧ t.mem.size = prog.length ∧ (∀ i (h : i < prog.length), t.mem.get i = prog[i]) ∧
        t.pc = 0 ∧ t.halted = false ∧ t.fault = none ∧ t.cfg = s.cfg ∧ t.input = s.input ∧ t.output = s.output)

/-- R161: state from an earlier run cannot leak into the next: two machines with the same parameters and channels, in any
states, are the same after the same load. (That the channels stand in `State`, and so in this premise, is the model's
choice: notes/assumptions/8.md.) -/
def Obligations.LoadForgetsTheEarlierRun : Prop :=
  ∀ (s u : State) (prog : List Int), u.cfg = s.cfg → u.input = s.input → u.output = s.output →
    u.load prog = s.load prog

/-- R41, R62: `hostRead` returns the cell and `hostWrite` sets it, on a running or a stopped machine alike; out of range,
or with a value out of range, they are refused and nothing changes. A write changes one cell and nothing else, and a read
after it sees it. -/
def Obligations.HostReadsAndWrites : Prop :=
  ∀ (s : State) (a v : Int),
    (¬ Address s a → s.hostRead a = none ∧ s.hostWrite a v = none ∧ s.serve (.hostWrite a v) = s) ∧
    (¬ InRange s.cfg.wordBits v → s.hostWrite a v = none ∧ s.serve (.hostWrite a v) = s) ∧
    (Address s a → s.hostRead a = some (s.mem.get a.toNat)) ∧
    (Address s a → InRange s.cfg.wordBits v →
      ∃ t, s.hostWrite a v = some t ∧ s.serve (.hostWrite a v) = t ∧ t.hostRead a = some v ∧ Stores s t a v ∧
        t.pc = s.pc ∧ SameStatus s t ∧ t.input = s.input ∧ t.output = s.output)

/-- R42: `step()` on a stopped machine performs nothing and changes nothing; on any other it performs the step. -/
def Obligations.HostStepOnAStoppedMachine : Prop :=
  ∀ s : State, (s.halted = true ∨ s.fault ≠ none → s.serve .step = s) ∧
    (∀ t, step s = .next t → s.serve .step = t)

/-- R43, R131: `run()` repeats `step()` until the machine is stopped. Under fuel it returns `Ok(M)` exactly where some
number of steps within the fuel reaches a halted state, with that state's memory, and `Err(fault)` exactly where it
reaches a faulted one; more fuel never changes what it returned (R165). -/
def Obligations.RunRepeatsTheStep : Prop :=
  ∀ (s : State) (n : Nat),
    (∀ m, s.runFor n = .ok m ↔
      ∃ k ≤ n, (State.hostStep^[k] s).halted = true ∧ (State.hostStep^[k] s).mem = m) ∧
    (∀ f, s.runFor n = .err f ↔
      ∃ k ≤ n, (State.hostStep^[k] s).halted = false ∧ (State.hostStep^[k] s).fault = some f) ∧
    (s.runFor n ≠ .noConclusion → ∀ m, n ≤ m → s.runFor m = s.runFor n)

/-- R37: a line that parses as a `W`-bit integer arrives as that value, any other line as `Malformed`, at the end of the
FIFO; nothing else changes. -/
def Obligations.InputItemsArriveInOrder : Prop :=
  ∀ s : State,
    (∀ n : Int, InRange s.cfg.wordBits n → s.supply (some n) = { s with input := s.input ++ [.value n] }) ∧
    (∀ n : Int, ¬ InRange s.cfg.wordBits n → s.supply (some n) = { s with input := s.input ++ [.malformed] }) ∧
    s.supply none = { s with input := s.input ++ [.malformed] }
end

