-- ==== Sys2Proof/Laws/State.lean ====
section
/-! SUPPORT. One lemma per field per update of the state, so that no proof unfolds a record update. -/

namespace Sys2Proof.Machine

variable (s : State)

@[simp] theorem State.setMem_cfg (m : Memory) : (s.setMem m).cfg = s.cfg := rfl
@[simp] theorem State.setMem_mem (m : Memory) : (s.setMem m).mem = m := rfl
@[simp] theorem State.setMem_pc (m : Memory) : (s.setMem m).pc = s.pc := rfl
@[simp] theorem State.setMem_halted (m : Memory) : (s.setMem m).halted = s.halted := rfl
@[simp] theorem State.setMem_fault (m : Memory) : (s.setMem m).fault = s.fault := rfl
@[simp] theorem State.setMem_input (m : Memory) : (s.setMem m).input = s.input := rfl
@[simp] theorem State.setMem_output (m : Memory) : (s.setMem m).output = s.output := rfl

@[simp] theorem State.setPc_cfg (t : Nat) : (s.setPc t).cfg = s.cfg := rfl
@[simp] theorem State.setPc_mem (t : Nat) : (s.setPc t).mem = s.mem := rfl
@[simp] theorem State.setPc_pc (t : Nat) : (s.setPc t).pc = t := rfl
@[simp] theorem State.setPc_halted (t : Nat) : (s.setPc t).halted = s.halted := rfl
@[simp] theorem State.setPc_fault (t : Nat) : (s.setPc t).fault = s.fault := rfl
@[simp] theorem State.setPc_input (t : Nat) : (s.setPc t).input = s.input := rfl
@[simp] theorem State.setPc_output (t : Nat) : (s.setPc t).output = s.output := rfl

@[simp] theorem State.setHalted_cfg (b : Bool) : (s.setHalted b).cfg = s.cfg := rfl
@[simp] theorem State.setHalted_mem (b : Bool) : (s.setHalted b).mem = s.mem := rfl
@[simp] theorem State.setHalted_pc (b : Bool) : (s.setHalted b).pc = s.pc := rfl
@[simp] theorem State.setHalted_halted (b : Bool) : (s.setHalted b).halted = b := rfl
@[simp] theorem State.setHalted_fault (b : Bool) : (s.setHalted b).fault = s.fault := rfl
@[simp] theorem State.setHalted_input (b : Bool) : (s.setHalted b).input = s.input := rfl
@[simp] theorem State.setHalted_output (b : Bool) : (s.setHalted b).output = s.output := rfl

@[simp] theorem State.setFault_cfg (k : Option FaultKind) : (s.setFault k).cfg = s.cfg := rfl
@[simp] theorem State.setFault_mem (k : Option FaultKind) : (s.setFault k).mem = s.mem := rfl
@[simp] theorem State.setFault_pc (k : Option FaultKind) : (s.setFault k).pc = s.pc := rfl
@[simp] theorem State.setFault_halted (k : Option FaultKind) : (s.setFault k).halted = s.halted := rfl
@[simp] theorem State.setFault_fault (k : Option FaultKind) : (s.setFault k).fault = k := rfl
@[simp] theorem State.setFault_input (k : Option FaultKind) : (s.setFault k).input = s.input := rfl
@[simp] theorem State.setFault_output (k : Option FaultKind) : (s.setFault k).output = s.output := rfl

@[simp] theorem State.setInput_cfg (items : List InputItem) : (s.setInput items).cfg = s.cfg := rfl
@[simp] theorem State.setInput_mem (items : List InputItem) : (s.setInput items).mem = s.mem := rfl
@[simp] theorem State.setInput_pc (items : List InputItem) : (s.setInput items).pc = s.pc := rfl
@[simp] theorem State.setInput_halted (items : List InputItem) : (s.setInput items).halted = s.halted := rfl
@[simp] theorem State.setInput_fault (items : List InputItem) : (s.setInput items).fault = s.fault := rfl
@[simp] theorem State.setInput_input (items : List InputItem) : (s.setInput items).input = items := rfl
@[simp] theorem State.setInput_output (items : List InputItem) : (s.setInput items).output = s.output := rfl

@[simp] theorem State.outPut_cfg (v : Word) : (s.outPut v).cfg = s.cfg := rfl
@[simp] theorem State.outPut_mem (v : Word) : (s.outPut v).mem = s.mem := rfl
@[simp] theorem State.outPut_pc (v : Word) : (s.outPut v).pc = s.pc := rfl
@[simp] theorem State.outPut_halted (v : Word) : (s.outPut v).halted = s.halted := rfl
@[simp] theorem State.outPut_fault (v : Word) : (s.outPut v).fault = s.fault := rfl
@[simp] theorem State.outPut_input (v : Word) : (s.outPut v).input = s.input := rfl
@[simp] theorem State.outPut_output (v : Word) : (s.outPut v).output = s.output ++ [v] := rfl

@[simp] theorem State.advance_cfg (n : Nat) : (s.advance n).cfg = s.cfg := rfl
@[simp] theorem State.advance_mem (n : Nat) : (s.advance n).mem = s.mem := rfl
@[simp] theorem State.advance_pc (n : Nat) : (s.advance n).pc = s.pc + n := rfl
@[simp] theorem State.advance_halted (n : Nat) : (s.advance n).halted = s.halted := rfl
@[simp] theorem State.advance_fault (n : Nat) : (s.advance n).fault = s.fault := rfl
@[simp] theorem State.advance_input (n : Nat) : (s.advance n).input = s.input := rfl
@[simp] theorem State.advance_output (n : Nat) : (s.advance n).output = s.output := rfl

@[simp] theorem Memory.set_size (m : Memory) (a : Nat) (v : Word) : (m.set a v).size = m.size := rfl

@[simp] theorem Memory.ofWords_size (prog : List Word) : (Memory.ofWords prog).size = prog.length := rfl

end Sys2Proof.Machine
end

