-- ==== Sys2Proof/Laws/Memory.lean ====
section
/-! SUPPORT. The memory array: a read after a write, and every operation keeps the canonical form. -/

namespace Sys2Proof.Machine

/-! ### Lists of cells -/

theorem cellsGet_eq_unlisted {cells : List (Nat × Word)} {a : Nat} (h : ∀ p ∈ cells, p.1 ≠ a) :
    cellsGet cells a = Memory.unlisted := by
  induction cells with
  | nil => rfl
  | cons p rest ih =>
    obtain ⟨b, v⟩ := p
    have hb : b ≠ a := h (b, v) (by simp)
    rw [cellsGet, if_neg (Ne.symm hb)]
    exact ih (fun q hq => h q (by simp [hq]))

theorem cellsGet_mem {cells : List (Nat × Word)} {a : Nat} (h : cellsGet cells a ≠ Memory.unlisted) :
    (a, cellsGet cells a) ∈ cells := by
  induction cells with
  | nil => exact absurd rfl h
  | cons p rest ih =>
    obtain ⟨b, v⟩ := p
    by_cases hab : a = b
    · simp [cellsGet, hab]
    · simp only [cellsGet, if_neg hab] at h ⊢
      exact List.mem_cons_of_mem _ (ih h)

theorem cellsGet_filter_ne {cells : List (Nat × Word)} {a x : Nat} (hx : x ≠ a) :
    cellsGet (cells.filter (fun p => p.1 ≠ a)) x = cellsGet cells x := by
  induction cells with
  | nil => rfl
  | cons p rest ih =>
    obtain ⟨b, v⟩ := p
    by_cases hb : b = a
    · have hxb : ¬ x = b := by omega
      simpa [List.filter_cons, hb, cellsGet, hx] using ih
    · simp only [List.filter_cons, ne_eq, hb, not_false_eq_true, decide_true, if_true, cellsGet]
      rw [← ih]

theorem cellsGet_insert {cells : List (Nat × Word)} {a : Nat} {v : Word} (h : ∀ p ∈ cells, p.1 ≠ a) (x : Nat) :
    cellsGet (cellsInsert a v cells) x = if x = a then v else cellsGet cells x := by
  induction cells with
  | nil => simp [cellsInsert, cellsGet]
  | cons p rest ih =>
    obtain ⟨b, u⟩ := p
    have hb : b ≠ a := h (b, u) (by simp)
    have ih' := ih (fun q hq => h q (by simp [hq]))
    by_cases hab : a < b
    · simp [cellsInsert, hab, cellsGet]
    · simp only [cellsInsert, hab, if_false, cellsGet, ih']
      by_cases hxb : x = b
      · have : x ≠ a := by omega
        simp [hxb, hb]
      · simp [hxb]

/-- The word read at `x` after `v` is put at `a`, in any list of cells. -/
theorem cellsGet_cellsSet (cells : List (Nat × Word)) (a x : Nat) (v : Word) :
    cellsGet (cellsSet cells a v) x = if x = a then v else cellsGet cells x := by
  have hne : ∀ p ∈ cells.filter (fun p => p.1 ≠ a), p.1 ≠ a := by
    intro p hp
    simpa using (List.mem_filter.mp hp).2
  unfold cellsSet
  split
  case isTrue hv =>
    by_cases hx : x = a
    · rw [if_pos hx, hx, cellsGet_eq_unlisted hne, hv]
    · rw [if_neg hx, cellsGet_filter_ne hx]
  case isFalse =>
    rw [cellsGet_insert hne]
    by_cases hx : x = a
    · simp [hx]
    · simp only [if_neg hx, cellsGet_filter_ne hx]

theorem mem_cellsInsert {cells : List (Nat × Word)} {a : Nat} {v : Word} {p : Nat × Word} :
    p ∈ cellsInsert a v cells ↔ p = (a, v) ∨ p ∈ cells := by
  induction cells with
  | nil => simp [cellsInsert]
  | cons q rest ih =>
    obtain ⟨b, u⟩ := q
    by_cases hab : a < b
    · simp [cellsInsert, hab]
    · simp only [cellsInsert, hab, if_false, List.mem_cons, ih]
      tauto

theorem cellsInsert_rising {cells : List (Nat × Word)} {a : Nat} {v : Word}
    (hs : cells.Pairwise (fun p q => p.1 < q.1)) (h : ∀ p ∈ cells, p.1 ≠ a) :
    (cellsInsert a v cells).Pairwise (fun p q => p.1 < q.1) := by
  induction cells with
  | nil => simp [cellsInsert]
  | cons q rest ih =>
    obtain ⟨b, u⟩ := q
    have hb : b ≠ a := h (b, u) (by simp)
    obtain ⟨hlt, hrest⟩ := List.pairwise_cons.mp hs
    by_cases hab : a < b
    · simp only [cellsInsert, hab, if_true, List.pairwise_cons]
      refine ⟨?_, hlt, hrest⟩
      intro p hp
      rcases List.mem_cons.mp hp with rfl | hp
      · exact hab
      · exact lt_trans hab (hlt p hp)
    · simp only [cellsInsert, hab, if_false, List.pairwise_cons]
      refine ⟨?_, ih hrest (fun q hq => h q (by simp [hq]))⟩
      intro p hp
      rcases mem_cellsInsert.mp hp with rfl | hp
      · exact lt_of_le_of_ne (Nat.le_of_not_lt hab) hb
      · exact hlt p hp

/-- A pair of the new list is the written one or an old one. -/
theorem mem_cellsSet {cells : List (Nat × Word)} {a : Nat} {v : Word} {p : Nat × Word} (h : p ∈ cellsSet cells a v) :
    (p = (a, v) ∧ v ≠ Memory.unlisted) ∨ p ∈ cells := by
  unfold cellsSet at h
  split at h
  case isTrue => exact .inr (List.mem_of_mem_filter h)
  case isFalse hv =>
    rcases mem_cellsInsert.mp h with h | h
    · exact .inl ⟨h, hv⟩
    · exact .inr (List.mem_of_mem_filter h)

theorem cellsSet_rising {cells : List (Nat × Word)} (hs : cells.Pairwise (fun p q => p.1 < q.1)) (a : Nat) (v : Word) :
    (cellsSet cells a v).Pairwise (fun p q => p.1 < q.1) := by
  unfold cellsSet
  split
  case isTrue => exact hs.filter _
  case isFalse =>
    refine cellsInsert_rising (hs.filter _) ?_
    intro p hp
    simpa using (List.mem_filter.mp hp).2

/-! ### The memory -/

/-- The laws of reads and writes: the written cell holds the word, and every other cell is as before. -/
theorem Memory.get_set (m : Memory) (a x : Nat) (v : Word) : (m.set a v).get x = if x = a then v else m.get x :=
  cellsGet_cellsSet m.cells a x v

theorem Memory.set_wf {m : Memory} (h : m.wf) {a : Nat} (ha : a < m.size) (v : Word) : (m.set a v).wf := by
  refine ⟨cellsSet_rising h.1 a v, ?_⟩
  intro p hp
  rcases mem_cellsSet hp with ⟨rfl, hv⟩ | hp
  · exact ⟨ha, hv⟩
  · exact h.2 p hp

theorem Memory.set_words {m : Memory} {P : Word → Prop} (h : ∀ p ∈ m.cells, P p.2) {a : Nat} {v : Word} (hv : P v) :
    ∀ p ∈ (m.set a v).cells, P p.2 := by
  intro p hp
  rcases mem_cellsSet hp with ⟨rfl, _⟩ | hp
  · exact hv
  · exact h p hp

/-- A property of every listed word and of the unlisted one holds of every word read. -/
theorem Memory.get_of_words {m : Memory} {P : Word → Prop} (h : ∀ p ∈ m.cells, P p.2) (h0 : P Memory.unlisted)
    (a : Nat) : P (m.get a) := by
  by_cases hu : cellsGet m.cells a = Memory.unlisted
  · simpa [Memory.get, hu] using h0
  · exact h _ (cellsGet_mem hu)

theorem mem_cellsFrom {base : Nat} {prog : List Word} {p : Nat × Word} (h : p ∈ cellsFrom base prog) :
    base ≤ p.1 ∧ p.1 < base + prog.length ∧ p.2 ≠ Memory.unlisted ∧ p.2 ∈ prog := by
  induction prog generalizing base with
  | nil => simp [cellsFrom] at h
  | cons v vs ih =>
    have lift : p ∈ cellsFrom (base + 1) vs →
        base ≤ p.1 ∧ p.1 < base + (v :: vs).length ∧ p.2 ≠ Memory.unlisted ∧ p.2 ∈ v :: vs := by
      intro hp
      obtain ⟨h1, h2, h3, h4⟩ := ih hp
      simp only [List.length_cons]
      exact ⟨by omega, by omega, h3, List.mem_cons_of_mem _ h4⟩
    unfold cellsFrom at h
    split at h
    case isTrue => exact lift h
    case isFalse hv =>
      rcases List.mem_cons.mp h with rfl | h
      · exact ⟨le_refl _, by simp, hv, by simp⟩
      · exact lift h

theorem cellsFrom_rising (base : Nat) (prog : List Word) :
    (cellsFrom base prog).Pairwise (fun p q => p.1 < q.1) := by
  induction prog generalizing base with
  | nil => simp [cellsFrom]
  | cons v vs ih =>
    unfold cellsFrom
    split
    case isTrue => exact ih (base + 1)
    case isFalse =>
      refine List.pairwise_cons.mpr ⟨?_, ih (base + 1)⟩
      intro p hp
      exact (mem_cellsFrom hp).1

theorem cellsGet_cellsFrom (base : Nat) (prog : List Word) (a : Nat) (ha : base ≤ a) :
    cellsGet (cellsFrom base prog) a = prog.getD (a - base) Memory.unlisted := by
  induction prog generalizing base with
  | nil => simp [cellsFrom, cellsGet]
  | cons v vs ih =>
    by_cases hab : a = base
    · subst hab
      unfold cellsFrom
      split
      case isTrue hv =>
        rw [cellsGet_eq_unlisted (fun p hp => by have := (mem_cellsFrom hp).1; omega)]
        simp [hv]
      case isFalse => simp [cellsGet]
    · have hstep : a - base = (a - (base + 1)) + 1 := by omega
      have ih' := ih (base + 1) (by omega)
      unfold cellsFrom
      split
      case isTrue => rw [ih', hstep]; simp
      case isFalse => rw [cellsGet, if_neg hab, ih', hstep]; simp

/-- Cell `i` of a loaded program is its word `i` (R39). -/
theorem Memory.get_ofWords (prog : List Word) (i : Nat) (hi : i < prog.length) :
    (Memory.ofWords prog).get i = prog[i] := by
  unfold Memory.get Memory.ofWords
  rw [cellsGet_cellsFrom 0 prog i (Nat.zero_le _)]
  simp [hi]

theorem Memory.ofWords_wf (prog : List Word) : (Memory.ofWords prog).wf := by
  refine ⟨cellsFrom_rising 0 prog, ?_⟩
  intro p hp
  obtain ⟨_, h2, h3, _⟩ := mem_cellsFrom hp
  exact ⟨by simpa using h2, h3⟩

theorem Memory.ofWords_words {prog : List Word} {P : Word → Prop} (h : ∀ v ∈ prog, P v) :
    ∀ p ∈ (Memory.ofWords prog).cells, P p.2 := fun _ hp => h _ (mem_cellsFrom hp).2.2.2

/-- Two memories in canonical form that read alike everywhere are the same data. -/
theorem cells_ext {cs ds : List (Nat × Word)} (hc : cs.Pairwise (fun p q => p.1 < q.1))
    (hd : ds.Pairwise (fun p q => p.1 < q.1)) (hc0 : ∀ p ∈ cs, p.2 ≠ Memory.unlisted)
    (hd0 : ∀ p ∈ ds, p.2 ≠ Memory.unlisted) (h : ∀ a, cellsGet cs a = cellsGet ds a) : cs = ds := by
  have find : ∀ {l : List (Nat × Word)}, l.Pairwise (fun p q => p.1 < q.1) → ∀ p ∈ l, cellsGet l p.1 = p.2 := by
    intro l hl
    induction l with
    | nil => simp
    | cons q rest ih =>
      intro p hp
      obtain ⟨hlt, hrest⟩ := List.pairwise_cons.mp hl
      rcases List.mem_cons.mp hp with rfl | hp
      · simp [cellsGet]
      · have := hlt p hp
        rw [cellsGet, if_neg (by omega)]
        exact ih hrest p hp
  have sub : ∀ {l r : List (Nat × Word)}, l.Pairwise (fun p q => p.1 < q.1) → (∀ p ∈ l, p.2 ≠ Memory.unlisted) →
      (∀ a, cellsGet l a = cellsGet r a) → ∀ p ∈ l, p ∈ r := by
    intro l r hl hl0 hlr p hp
    have hget : cellsGet r p.1 = p.2 := by rw [← hlr, find hl p hp]
    have hmem := cellsGet_mem (cells := r) (a := p.1) (by rw [hget]; exact hl0 p hp)
    rwa [hget] at hmem
  have nodup : ∀ {l : List (Nat × Word)}, l.Pairwise (fun p q => p.1 < q.1) → l.Nodup := by
    intro l hl
    refine hl.imp ?_
    intro p q hpq heq
    rw [heq] at hpq
    omega
  have hperm : cs.Perm ds := by
    refine (List.perm_ext_iff_of_nodup (nodup hc) (nodup hd)).mpr ?_
    intro p
    exact ⟨sub hc hc0 h p, sub hd hd0 (fun a => (h a).symm) p⟩
  refine hperm.eq_of_pairwise (le := fun p q => p.1 < q.1) ?_ hc hd
  intro p q _ _ hpq hqp
  omega

theorem Memory.ext_of_wf {m n : Memory} (hm : m.wf) (hn : n.wf) (hsize : m.size = n.size)
    (h : ∀ a, m.get a = n.get a) : m = n := by
  cases m; cases n
  simp only [Memory.mk.injEq]
  exact ⟨hsize, cells_ext hm.1 hn.1 (fun p hp => (hm.2 p hp).2) (fun p hp => (hn.2 p hp).2) h⟩

/-! ### Placing words -/

theorem Memory.setWords_size (m : Memory) (a : Nat) (ws : List Word) : (m.setWords a ws).size = m.size := by
  induction ws generalizing m a with
  | nil => rfl
  | cons v vs ih => rw [Memory.setWords, ih]; rfl

/-- Word `k` of the words written from `a` on stands at `a + k`, and every cell outside them is as before. -/
theorem Memory.get_setWords (m : Memory) (a x : Nat) (ws : List Word) :
    (m.setWords a ws).get x = if a ≤ x ∧ x < a + ws.length then ws.getD (x - a) Memory.unlisted else m.get x := by
  induction ws generalizing m a with
  | nil => rw [Memory.setWords, if_neg (by simp)]
  | cons v vs ih =>
    rw [Memory.setWords, ih, Memory.get_set]
    simp only [List.length_cons]
    by_cases hx : x = a
    · subst hx
      rw [if_neg (by omega), if_pos rfl, if_pos (by omega)]
      simp
    · by_cases hin : a + 1 ≤ x ∧ x < a + 1 + vs.length
      · have hk : x - a = (x - (a + 1)) + 1 := by omega
        rw [if_pos hin, if_pos (by omega), hk]
        simp
      · rw [if_neg hin, if_neg hx, if_neg (by omega)]

theorem Memory.setWords_wf {m : Memory} (h : m.wf) {a : Nat} {ws : List Word} (ha : a + ws.length ≤ m.size) :
    (m.setWords a ws).wf := by
  induction ws generalizing m a with
  | nil => exact h
  | cons v vs ih =>
    simp only [List.length_cons] at ha
    exact ih (Memory.set_wf h (by omega) v) (by simp only [Memory.set_size]; omega)

end Sys2Proof.Machine
end

