-- ==== Sys2Proof/Laws/Ops.lean ====
section
/-! SUPPORT. One lemma per shared operation: everything it can do. Proofs cite these and do not unfold the operation. -/

namespace Sys2Proof.Machine

/-! ### Sequencing -/

theorem except_bind_ok {ε α β : Type} {x : Except ε α} {f : α → Except ε β} {b : β} :
    (x >>= f) = .ok b ↔ ∃ a, x = .ok a ∧ f a = .ok b := by
  cases x with
  | error e => simp [bind, Except.bind]
  | ok a => simp [bind, Except.bind]

theorem except_bind_error {ε α β : Type} {x : Except ε α} {f : α → Except ε β} {e : ε} :
    (x >>= f) = .error e ↔ x = .error e ∨ ∃ a, x = .ok a ∧ f a = .error e := by
  cases x with
  | error d => simp [bind, Except.bind]
  | ok a => simp [bind, Except.bind]

/-! ### Memory accesses -/

theorem State.memRead_ok {s : State} {a : Int} {v : Word} :
    s.memRead a = .ok v ↔ s.InBounds a ∧ v = s.mem.get a.toNat := by
  unfold State.memRead
  split
  case isTrue h => exact ⟨fun e => ⟨h, (Except.ok.inj e).symm⟩, fun e => by rw [e.2]⟩
  case isFalse h => simp [h]

theorem State.memRead_error {s : State} {a : Int} {k : FaultKind} :
    s.memRead a = .error k ↔ ¬ s.InBounds a ∧ k = .outOfBounds a := by
  unfold State.memRead
  split
  case isTrue h => simp [h]
  case isFalse h => simp [h, eq_comm]

theorem State.memWrite_ok {s t : State} {a : Int} {v : Word} :
    s.memWrite a v = .ok t ↔ s.InBounds a ∧ t = s.setMem (s.mem.set a.toNat v) := by
  unfold State.memWrite
  split
  case isTrue h => exact ⟨fun e => ⟨h, (Except.ok.inj e).symm⟩, fun e => by rw [e.2]⟩
  case isFalse h => simp [h]

theorem State.memWrite_error {s : State} {a : Int} {v : Word} {k : FaultKind} :
    s.memWrite a v = .error k ↔ ¬ s.InBounds a ∧ k = .outOfBounds a := by
  unfold State.memWrite
  split
  case isTrue h => simp [h]
  case isFalse h => simp [h, eq_comm]

theorem State.jumpTo_ok {s t : State} {a : Word} : s.jumpTo a = .ok t ↔ s.InBounds a ∧ t = s.setPc a.toNat := by
  unfold State.jumpTo
  split
  case isTrue h => exact ⟨fun e => ⟨h, (Except.ok.inj e).symm⟩, fun e => by rw [e.2]⟩
  case isFalse h => simp [h]

theorem State.jumpTo_error {s : State} {a : Word} {k : FaultKind} :
    s.jumpTo a = .error k ↔ ¬ s.InBounds a ∧ k = .outOfBounds a := by
  unfold State.jumpTo
  split
  case isTrue h => simp [h]
  case isFalse h => simp [h, eq_comm]

/-! ### Operands -/

theorem State.val_ok {s : State} {o : ReadOperand} {v : Word} :
    s.val o = .ok v ↔
      (o.mode = .position ∧ s.InBounds o.raw ∧ v = s.mem.get o.raw.toNat) ∨ (o.mode = .immediate ∧ v = o.raw) := by
  unfold State.val
  split
  case h_1 h => simp [h, State.memRead_ok]
  case h_2 h => simp [h, eq_comm]

theorem State.val_error {s : State} {o : ReadOperand} {k : FaultKind} :
    s.val o = .error k ↔ o.mode = .position ∧ ¬ s.InBounds o.raw ∧ k = .outOfBounds o.raw := by
  unfold State.val
  split
  case h_1 h => simp [h, State.memRead_error]
  case h_2 h => simp [h]

/-! ### The ALU -/

theorem narrow_ok {cfg : Config} {r v : Int} :
    narrow cfg r = .ok v ↔
      (InRange cfg.wordBits r ∧ v = r) ∨
        (¬ InRange cfg.wordBits r ∧ cfg.overflow = .wrap ∧ v = wrapWord cfg.wordBits r) := by
  unfold narrow
  split
  case isTrue h =>
    constructor
    · intro e; exact .inl ⟨h, (Except.ok.inj e).symm⟩
    · rintro (⟨_, rfl⟩ | ⟨hn, _⟩)
      · rfl
      · exact absurd h hn
  case isFalse h =>
    split
    case h_1 ho => simp [h, ho]
    case h_2 ho => simp [h, ho, eq_comm]

theorem narrow_error {cfg : Config} {r : Int} {k : FaultKind} :
    narrow cfg r = .error k ↔ ¬ InRange cfg.wordBits r ∧ cfg.overflow = .fault ∧ k = .arithmeticOverflow := by
  unfold narrow
  split
  case isTrue h => simp [h]
  case isFalse h =>
    split
    case h_1 ho => simp [h, ho, eq_comm]
    case h_2 ho => simp [h, ho]

theorem signBound_pos (W : Nat) : 0 < signBound W := by
  unfold signBound
  exact_mod_cast Nat.pos_of_ne_zero (by positivity)

theorem inRange_zero (W : Nat) : InRange W 0 := by
  have := signBound_pos W
  constructor <;> omega

/-- One is a word of every possible width, `W >= 2`. -/
theorem inRange_one {W : Nat} (h : 2 ≤ W) : InRange W 1 := by
  have h2 : (2 : Int) ≤ signBound W := by
    unfold signBound
    have : 2 ^ 1 ≤ 2 ^ (W - 1) := Nat.pow_le_pow_right (by omega) (by omega)
    exact_mod_cast this
  constructor <;> omega

/-- The wrapped value is a `W`-bit word (R13). -/
theorem wrapWord_inRange {W : Nat} (hW : 1 ≤ W) (v : Int) : InRange W (wrapWord W v) := by
  have hpow : (2 ^ W : Nat) = 2 * 2 ^ (W - 1) := by
    obtain ⟨n, rfl⟩ : ∃ n, W = n + 1 := ⟨W - 1, by omega⟩
    simp [pow_succ]; ring
  have hpos : 0 < 2 ^ W := by positivity
  have lo := Int.le_bmod (x := v) (m := 2 ^ W) hpos
  have hi := Int.bmod_lt (x := v) (m := 2 ^ W) hpos
  unfold InRange wrapWord signBound
  generalize 2 ^ (W - 1) = b at *
  rw [hpow] at lo hi ⊢
  push_cast at lo hi
  constructor <;> omega

/-- The wrapped value is congruent to the exact one modulo `2^W` (R13). -/
theorem wrapWord_congr (W : Nat) (v : Int) : wrapWord W v % (2 ^ W : Nat) = v % (2 ^ W : Nat) :=
  Int.bmod_emod

theorem aluLt_inRange {W : Nat} (h : 2 ≤ W) (x y : Int) : InRange W (aluLt x y) := by
  unfold aluLt
  split
  case isTrue => exact inRange_one h
  case isFalse => exact inRange_zero W

theorem aluEq_inRange {W : Nat} (h : 2 ≤ W) (x y : Int) : InRange W (aluEq x y) := by
  unfold aluEq
  split
  case isTrue => exact inRange_one h
  case isFalse => exact inRange_zero W

theorem narrow_inRange {cfg : Config} (h : 1 ≤ cfg.wordBits) {r v : Int} (hr : narrow cfg r = .ok v) :
    InRange cfg.wordBits v := by
  rcases narrow_ok.mp hr with ⟨h1, rfl⟩ | ⟨_, _, rfl⟩
  · exact h1
  · exact wrapWord_inRange h r

/-! ### The end of a step -/

/-- A step's end is always a next state: the effects, or the fault raised from `s`. -/
theorem State.commit_cases (s : State) (r : Except FaultKind State) :
    (∃ t, r = .ok t ∧ s.commit r = .next t) ∨
      ∃ k, r = .error k ∧ s.commit r = .next (s.setFault (some k)) := by
  cases r with
  | ok t => exact .inl ⟨t, rfl, rfl⟩
  | error k => exact .inr ⟨k, rfl, rfl⟩

theorem State.commit_next {s t : State} {r : Except FaultKind State} :
    s.commit r = .next t ↔ r = .ok t ∨ ∃ k, r = .error k ∧ t = s.setFault (some k) := by
  cases r with
  | ok u => simp [State.commit]
  | error k => simp [State.commit, State.raise, eq_comm]

/-! ### Fetching -/

theorem State.operandCell_ok {s : State} {k : Nat} {v : Word} :
    s.operandCell k = .ok v ↔ s.pc + 1 + k < s.mem.size ∧ v = s.mem.get (s.pc + 1 + k) := by
  unfold State.operandCell
  rw [State.memRead_ok, Int.toNat_natCast]
  exact and_congr_left fun _ => ⟨fun h => by exact_mod_cast h.2, fun h => ⟨by positivity, by exact_mod_cast h⟩⟩

theorem State.operandCell_error {s : State} {k : Nat} {e : FaultKind} :
    s.operandCell k = .error e ↔ s.mem.size ≤ s.pc + 1 + k ∧ e = .outOfBounds ((s.pc + 1 + k : Nat) : Int) := by
  unfold State.operandCell
  rw [State.memRead_error]
  exact and_congr_left fun _ => ⟨fun h => by by_contra hn; exact h ⟨by positivity, by push_cast; omega⟩,
    fun h hb => by have := hb.2; push_cast at this; omega⟩

/-- What a fetch that succeeds has found: the word at `pc` decodes, and its operand cells exist. -/
theorem State.fetch_ok {s : State} {i : Instr} :
    s.fetch = .ok i ↔
      s.pc < s.mem.size ∧ ∃ h, decode s.cfg (s.mem.get s.pc) = .ok h ∧ h.assemble s.operandCell = .ok i := by
  unfold State.fetch
  rw [except_bind_ok]
  constructor
  · rintro ⟨w, hw, hi⟩
    obtain ⟨hb, rfl⟩ := State.memRead_ok.mp hw
    simp only [Int.toNat_natCast] at hi
    refine ⟨by simp only [State.InBounds] at hb; omega, ?_⟩
    cases hd : decode s.cfg (s.mem.get s.pc) with
    | error f => simp [hd] at hi
    | ok h => exact ⟨h, rfl, by simpa [hd] using hi⟩
  · rintro ⟨hb, h, hd, hi⟩
    refine ⟨s.mem.get s.pc, State.memRead_ok.mpr ⟨?_, by simp⟩, by simpa [hd] using hi⟩
    simp only [State.InBounds]
    omega

/-- Why a fetch fails: the three faults of the common step, in their order (R92, R93, R94). -/
theorem State.fetch_error {s : State} {k : FaultKind} :
    s.fetch = .error k ↔
      (s.mem.size ≤ s.pc ∧ k = .outOfBounds (s.pc : Int)) ∨
      (s.pc < s.mem.size ∧ ∃ f, decode s.cfg (s.mem.get s.pc) = .error f ∧ k = FaultKind.ofDecode f) ∨
      (s.pc < s.mem.size ∧ ∃ h, decode s.cfg (s.mem.get s.pc) = .ok h ∧ h.assemble s.operandCell = .error k) := by
  unfold State.fetch
  rw [except_bind_error]
  by_cases hb : s.pc < s.mem.size
  · have hr : s.memRead (s.pc : Int) = .ok (s.mem.get s.pc) := by
      rw [State.memRead_ok]
      exact ⟨by simp only [State.InBounds]; omega, by simp⟩
    cases hd : decode s.cfg (s.mem.get s.pc) with
    | error f => simp [hr, hd, hb, Nat.not_le.mpr hb, eq_comm]
    | ok h => simp [hr, hd, hb, Nat.not_le.mpr hb]
  · have hr : s.memRead (s.pc : Int) = .error (.outOfBounds (s.pc : Int)) := by
      rw [State.memRead_error]
      exact ⟨by simp only [State.InBounds]; omega, rfl⟩
    simp [hr, hb, Nat.le_of_not_lt hb, eq_comm]

/-- An operand cell that can be fetched lies in memory (R94). -/
theorem State.operandCell_lt {s : State} {k : Nat} {v : Word} (h : s.operandCell k = .ok v) :
    s.pc + 1 + k < s.mem.size := (State.operandCell_ok.mp h).1

/-- An instruction assembled from operand cells ends inside memory (R94). -/
theorem Header.assemble_width {s : State} {h : Header} {i : Instr} (hpc : s.pc < s.mem.size)
    (hi : h.assemble s.operandCell = .ok i) : s.pc + i.width ≤ s.mem.size := by
  have three : ∀ {f : Word → Word → Word → Instr}, (∀ x y z, (f x y z).width = 4) →
      (do let r0 ← s.operandCell 0; let r1 ← s.operandCell 1; let r2 ← s.operandCell 2; return f r0 r1 r2) = .ok i →
      s.pc + i.width ≤ s.mem.size := by
    intro f hw hi
    simp only [except_bind_ok] at hi
    obtain ⟨r0, _, r1, _, r2, h2, hi⟩ := hi
    rw [← Except.ok.inj hi, hw]
    have := State.operandCell_lt h2
    omega
  have two : ∀ {f : Word → Word → Instr}, (∀ x y, (f x y).width = 3) →
      (do let r0 ← s.operandCell 0; let r1 ← s.operandCell 1; return f r0 r1) = .ok i →
      s.pc + i.width ≤ s.mem.size := by
    intro f hw hi
    simp only [except_bind_ok] at hi
    obtain ⟨r0, _, r1, h1, hi⟩ := hi
    rw [← Except.ok.inj hi, hw]
    have := State.operandCell_lt h1
    omega
  have one : ∀ {f : Word → Instr}, (∀ x, (f x).width = 2) →
      (do let r0 ← s.operandCell 0; return f r0) = .ok i → s.pc + i.width ≤ s.mem.size := by
    intro f hw hi
    simp only [except_bind_ok] at hi
    obtain ⟨r0, h0, hi⟩ := hi
    rw [← Except.ok.inj hi, hw]
    have := State.operandCell_lt h0
    omega
  cases h with
  | add m0 m1 => exact three (fun _ _ _ => rfl) hi
  | mul m0 m1 => exact three (fun _ _ _ => rfl) hi
  | input => exact one (fun _ => rfl) hi
  | output m0 => exact one (fun _ => rfl) hi
  | jumpIfTrue m0 m1 => exact two (fun _ _ => rfl) hi
  | jumpIfFalse m0 m1 => exact two (fun _ _ => rfl) hi
  | lessThan m0 m1 => exact three (fun _ _ _ => rfl) hi
  | equals m0 m1 => exact three (fun _ _ _ => rfl) hi
  | halt =>
    rw [← Except.ok.inj hi]
    exact hpc

theorem State.fetch_width {s : State} {i : Instr} (h : s.fetch = .ok i) : s.pc + i.width ≤ s.mem.size := by
  obtain ⟨hpc, hd, _, hi⟩ := State.fetch_ok.mp h
  exact Header.assemble_width hpc hi

end Sys2Proof.Machine
end

