-- ==== Sys2Proof/Laws/Decode.lean ====
section
/-! SUPPORT. The decoder and the encoder: one lemma per function. -/

namespace Sys2Proof

/-! ### Opcodes -/

theorem Opcode.number_pos (op : Opcode) : 1 ≤ op.number ∧ op.number ≤ 99 := by cases op <;> decide

theorem Opcode.number_injective {op op' : Opcode} (h : op.number = op'.number) : op = op' := by
  revert h
  cases op <;> cases op' <;> decide

theorem validOpcodes_extended (op : Opcode) : op ∈ validOpcodes .extended := by cases op <;> decide

theorem validOpcodes_reduced_sub {op : Opcode} {v : Variant} (h : op ∈ validOpcodes .reduced) : op ∈ validOpcodes v := by
  revert h
  cases v <;> cases op <;> decide

/-- Which operation an opcode pair selects: the valid one with that number (R66, R68). -/
theorem Opcode.ofPair_eq_some {v : Variant} {opc : Int} {op : Opcode} :
    Opcode.ofPair v opc = some op ↔ op ∈ validOpcodes v ∧ (op.number : Int) = opc := by
  constructor
  · intro h
    exact ⟨List.mem_of_find?_eq_some h, by simpa using List.find?_some h⟩
  · rintro ⟨hmem, hnum⟩
    cases hf : Opcode.ofPair v opc with
    | none => exact absurd hnum (by simpa using List.find?_eq_none.mp hf op hmem)
    | some op' =>
      have h' : (op'.number : Int) = opc := by simpa using List.find?_some hf
      rw [Opcode.number_injective (op := op') (op' := op) (by omega)]

theorem Opcode.ofPair_eq_none {v : Variant} {opc : Int} :
    Opcode.ofPair v opc = none ↔ ∀ op ∈ validOpcodes v, (op.number : Int) ≠ opc := by
  unfold Opcode.ofPair
  rw [List.find?_eq_none]
  simp

/-! ### Digits and modes -/

/-- The digits a variant accepts for a mode (R69, R75). -/
theorem modeOfDigit_ok {v : Variant} {d : Nat} {m : Mode} :
    modeOfDigit v d = .ok m ↔ (d = 0 ∧ m = .position) ∨ (d = 1 ∧ v = .extended ∧ m = .immediate) := by
  unfold modeOfDigit
  split
  case isTrue h => subst h; simp [eq_comm]
  case isFalse h =>
    split
    case isTrue h1 => simp [h1.1, h1.2, eq_comm]
    case isFalse h1 =>
      simp only [h, false_and, false_or, reduceCtorEq, false_iff]
      rintro ⟨hd, hv, _⟩
      exact h1 ⟨hd, hv⟩

theorem modeOfDigit_error {v : Variant} {d : Nat} {f : DecodeFailure} :
    modeOfDigit v d = .error f ↔ ¬ (d = 0 ∨ (d = 1 ∧ v = .extended)) ∧ f = .invalidAddressingMode d := by
  unfold modeOfDigit
  split
  case isTrue h => simp [h]
  case isFalse h =>
    split
    case isTrue h1 => simp [h1.1, h1.2]
    case isFalse h1 => simp [h, h1, eq_comm]

theorem digit_zero (m : Nat) : digit m 0 = m % 10 := by simp [digit]

theorem digit_succ (m k : Nat) : digit m (k + 1) = digit (m / 10) k := by
  unfold digit
  rw [pow_succ', Nat.div_div_eq_div_mul]

theorem digit_lt (m k : Nat) : digit m k < 10 := Nat.mod_lt _ (by decide)

/-- A digit at or above position `n` is a digit of the quotient by `10^n`. -/
theorem digit_add (m n k : Nat) : digit m (n + k) = digit (m / 10 ^ n) k := by
  unfold digit
  rw [pow_add, Nat.div_div_eq_div_mul]

theorem opcodePair_of_nonneg {w : Int} (h : 0 ≤ w) : opcodePair w = w % 100 := Int.tmod_eq_emod_of_nonneg h

theorem modeSequence_of_nonneg {w : Int} (h : 0 ≤ w) : modeSequence w = w.toNat / 100 := by
  obtain ⟨n, rfl⟩ := Int.eq_ofNat_of_zero_le h
  rfl

/-- The opcode pair of a negative word is in `[-99, 0]` (R65). -/
theorem opcodePair_of_neg {w : Int} (h : w < 0) : -99 ≤ opcodePair w ∧ opcodePair w ≤ 0 := by
  unfold opcodePair
  rw [show w = -(-w) by omega, Int.neg_tmod, Int.tmod_eq_emod_of_nonneg (by omega)]
  omega

theorem opcodePair_bounds (w : Int) : -99 ≤ opcodePair w ∧ opcodePair w ≤ 99 := by
  by_cases h : 0 ≤ w
  · rw [opcodePair_of_nonneg h]
    omega
  · have := opcodePair_of_neg (w := w) (by omega)
    omega

/-! ### The unused digits -/

/-- The scan accepts exactly where every digit is accepted, given fuel enough (R72). -/
theorem scanUnused_ok {v : Variant} {fuel rest : Nat} (hf : rest ≤ fuel) :
    scanUnused v fuel rest = .ok () ↔ ∀ k, ∃ m, modeOfDigit v (digit rest k) = .ok m := by
  induction fuel generalizing rest with
  | zero =>
    obtain rfl : rest = 0 := by omega
    simp [scanUnused, digit, modeOfDigit]
  | succ fuel ih =>
    rw [scanUnused]
    split
    case isTrue h => subst h; simp [digit, modeOfDigit]
    case isFalse h =>
      have hlt : rest / 10 ≤ fuel := by omega
      rw [Machine.except_bind_ok]
      simp only [ih hlt]
      constructor
      · rintro ⟨m, hm, hrest⟩ k
        cases k with
        | zero => exact ⟨m, by rwa [digit_zero]⟩
        | succ k => rw [digit_succ]; exact hrest k
      · intro hall
        obtain ⟨m, hm⟩ := hall 0
        exact ⟨m, by rwa [digit_zero] at hm, fun k => by simpa [digit_succ] using hall (k + 1)⟩

/-- The scan fails with the lowest digit that is not accepted (R72). -/
theorem scanUnused_error {v : Variant} {fuel rest : Nat} (hf : rest ≤ fuel) {f : DecodeFailure} :
    scanUnused v fuel rest = .error f ↔
      ∃ k, modeOfDigit v (digit rest k) = .error f ∧ ∀ j < k, ∃ m, modeOfDigit v (digit rest j) = .ok m := by
  induction fuel generalizing rest with
  | zero =>
    obtain rfl : rest = 0 := by omega
    simp [scanUnused, digit, modeOfDigit]
  | succ fuel ih =>
    rw [scanUnused]
    split
    case isTrue h => subst h; simp [digit, modeOfDigit]
    case isFalse h =>
      have hlt : rest / 10 ≤ fuel := by omega
      rw [Machine.except_bind_error]
      simp only [ih hlt]
      constructor
      · rintro (h0 | ⟨m, hm, k, hk, hj⟩)
        · exact ⟨0, by rwa [digit_zero], by simp⟩
        · refine ⟨k + 1, by rwa [digit_succ], ?_⟩
          intro j hjk
          cases j with
          | zero => exact ⟨m, by rwa [digit_zero]⟩
          | succ j => rw [digit_succ]; exact hj j (by omega)
      · rintro ⟨k, hk, hj⟩
        cases k with
        | zero => exact .inl (by rwa [digit_zero] at hk)
        | succ k =>
          obtain ⟨m, hm⟩ := hj 0 (by omega)
          refine .inr ⟨m, by rwa [digit_zero] at hm, k, by rwa [digit_succ] at hk, ?_⟩
          intro j hjk
          simpa [digit_succ] using hj (j + 1) (by omega)

/-! ### Decode -/

theorem Opcode.header_opcode {op : Opcode} {mode : Nat → Except DecodeFailure Mode} {h : Header}
    (hh : op.header mode = .ok h) : h.opcode = op := by
  cases op <;> simp only [Opcode.header, Machine.except_bind_ok, pure, Except.pure, Except.ok.injEq] at hh
  case halt => subst hh; rfl
  case input => obtain ⟨_, _, rfl⟩ := hh; rfl
  case output => obtain ⟨_, _, rfl⟩ := hh; rfl
  case jumpIfTrue => obtain ⟨_, _, _, _, rfl⟩ := hh; rfl
  case jumpIfFalse => obtain ⟨_, _, _, _, rfl⟩ := hh; rfl
  case add => obtain ⟨_, _, _, _, _, _, rfl⟩ := hh; rfl
  case mul => obtain ⟨_, _, _, _, _, _, rfl⟩ := hh; rfl
  case lessThan => obtain ⟨_, _, _, _, _, _, rfl⟩ := hh; rfl
  case equals => obtain ⟨_, _, _, _, _, _, rfl⟩ := hh; rfl

/-- The operand digits are all accepted exactly where a header comes out (R73). -/
theorem Opcode.header_ok_iff {op : Opcode} {mode : Nat → Except DecodeFailure Mode} :
    (∃ h, op.header mode = .ok h) ↔ ∀ k < op.arity, ∃ m, mode k = .ok m := by
  have lt3 : ∀ {P : Nat → Prop}, (∀ k < 3, P k) ↔ P 0 ∧ P 1 ∧ P 2 :=
    fun {P} => ⟨fun h => ⟨h 0 (by omega), h 1 (by omega), h 2 (by omega)⟩,
      fun ⟨h0, h1, h2⟩ k hk => by
        obtain rfl | rfl | rfl : k = 0 ∨ k = 1 ∨ k = 2 := by omega
        all_goals assumption⟩
  have lt2 : ∀ {P : Nat → Prop}, (∀ k < 2, P k) ↔ P 0 ∧ P 1 :=
    fun {P} => ⟨fun h => ⟨h 0 (by omega), h 1 (by omega)⟩,
      fun ⟨h0, h1⟩ k hk => by
        obtain rfl | rfl : k = 0 ∨ k = 1 := by omega
        all_goals assumption⟩
  cases op <;>
    simp only [Opcode.header, Opcode.arity, lt3, lt2, Machine.except_bind_ok, pure, Except.pure, Except.ok.injEq,
      Nat.lt_one_iff, forall_eq, Nat.not_lt_zero, false_imp_iff, implies_true, exists_eq'] <;>
    aesop

/-- The lowest operand digit that fails is the failure (R73, R137). -/
theorem Opcode.header_error_iff {op : Opcode} {mode : Nat → Except DecodeFailure Mode} {f : DecodeFailure} :
    op.header mode = .error f ↔ ∃ k < op.arity, mode k = .error f ∧ ∀ j < k, ∃ m, mode j = .ok m := by
  have ex3 : ∀ {P : Nat → Prop}, (∃ k < 3, P k) ↔ P 0 ∨ P 1 ∨ P 2 := by
    intro P
    constructor
    · rintro ⟨k, hk, h⟩
      obtain rfl | rfl | rfl : k = 0 ∨ k = 1 ∨ k = 2 := by omega
      all_goals tauto
    · rintro (h | h | h)
      exacts [⟨0, by omega, h⟩, ⟨1, by omega, h⟩, ⟨2, by omega, h⟩]
  have ex2 : ∀ {P : Nat → Prop}, (∃ k < 2, P k) ↔ P 0 ∨ P 1 := by
    intro P
    constructor
    · rintro ⟨k, hk, h⟩
      obtain rfl | rfl : k = 0 ∨ k = 1 := by omega
      all_goals tauto
    · rintro (h | h)
      exacts [⟨0, by omega, h⟩, ⟨1, by omega, h⟩]
  have lt2 : ∀ {P : Nat → Prop}, (∀ k < 2, P k) ↔ P 0 ∧ P 1 :=
    fun {P} => ⟨fun h => ⟨h 0 (by omega), h 1 (by omega)⟩,
      fun ⟨h0, h1⟩ k hk => by
        obtain rfl | rfl : k = 0 ∨ k = 1 := by omega
        all_goals assumption⟩
  cases op <;>
    simp only [Opcode.header, Opcode.arity, ex3, ex2, lt2, Machine.except_bind_error, pure, Except.pure,
      Nat.lt_one_iff, exists_eq_left, forall_eq, Nat.not_lt_zero, false_imp_iff, implies_true, and_true,
      false_and, exists_false, reduceCtorEq, and_false, or_false] <;>
    aesop

/-- The unused digits: nothing to check under `ignore`, every digit from the arity on under `validate` (R72). -/
theorem checkUnused_ok {cfg : Config} {n msq : Nat} :
    checkUnused cfg n msq = .ok () ↔
      (cfg.unusedDigits = .validate → ∀ k, n ≤ k → ∃ m, modeOfDigit cfg.variant (digit msq k) = .ok m) := by
  unfold checkUnused
  split
  case h_1 h => simp [h]
  case h_2 h =>
    rw [scanUnused_ok (le_refl _)]
    simp only [h, true_imp_iff]
    constructor
    · intro hall k hk
      obtain ⟨j, rfl⟩ := Nat.exists_eq_add_of_le hk
      rw [digit_add]; exact hall j
    · intro hall k
      rw [← digit_add]; exact hall (n + k) (by omega)

theorem checkUnused_error {cfg : Config} {n msq : Nat} {f : DecodeFailure} :
    checkUnused cfg n msq = .error f ↔
      cfg.unusedDigits = .validate ∧ ∃ k, n ≤ k ∧ modeOfDigit cfg.variant (digit msq k) = .error f ∧
        ∀ j, n ≤ j → j < k → ∃ m, modeOfDigit cfg.variant (digit msq j) = .ok m := by
  unfold checkUnused
  split
  case h_1 h => simp [h]
  case h_2 h =>
    rw [scanUnused_error (le_refl _)]
    simp only [h, true_and]
    constructor
    · rintro ⟨k, hk, hj⟩
      refine ⟨n + k, by omega, by rwa [digit_add], ?_⟩
      intro j hn hjk
      obtain ⟨i, rfl⟩ := Nat.exists_eq_add_of_le hn
      rw [digit_add]; exact hj i (by omega)
    · rintro ⟨k, hn, hk, hj⟩
      obtain ⟨i, rfl⟩ := Nat.exists_eq_add_of_le hn
      refine ⟨i, by rwa [← digit_add], ?_⟩
      intro j hji
      rw [← digit_add]; exact hj (n + j) (by omega) (by omega)

/-- A header depends on the mode digits below the arity only (R72). -/
theorem Opcode.header_congr {op : Opcode} {mode mode' : Nat → Except DecodeFailure Mode}
    (h : ∀ k < op.arity, mode k = mode' k) : op.header mode = op.header mode' := by
  have h0 := h 0
  have h1 := h 1
  have h2 := h 2
  cases op <;> simp [Opcode.arity] at h0 h1 h2 <;> simp [Opcode.header, *]

/-- What a word that decodes is (R73). -/
theorem decode_ok {cfg : Config} {w : Word} {h : Header} :
    decode cfg w = .ok h ↔
      ∃ op, Opcode.ofPair cfg.variant (opcodePair w) = some op ∧
        op.header (fun k => modeOfDigit cfg.variant (digit (modeSequence w) k)) = .ok h ∧
        checkUnused cfg op.arity (modeSequence w) = .ok () := by
  unfold decode
  split
  case h_1 hp => simp [hp]
  case h_2 op hp =>
    simp only [hp, Option.some.injEq, exists_eq_left', Machine.except_bind_ok, pure, Except.pure, Except.ok.injEq]
    constructor
    · rintro ⟨h', hh, u, hu, rfl⟩; exact ⟨hh, hu⟩
    · rintro ⟨hh, hu⟩; exact ⟨h, hh, (), hu, rfl⟩

/-- Why a word does not decode, the failures in their order (R73, R74). -/
theorem decode_error {cfg : Config} {w : Word} {f : DecodeFailure} :
    decode cfg w = .error f ↔
      (Opcode.ofPair cfg.variant (opcodePair w) = none ∧ f = .unknownOpcode (opcodePair w)) ∨
      ∃ op, Opcode.ofPair cfg.variant (opcodePair w) = some op ∧
        (op.header (fun k => modeOfDigit cfg.variant (digit (modeSequence w) k)) = .error f ∨
          ((∃ h, op.header (fun k => modeOfDigit cfg.variant (digit (modeSequence w) k)) = .ok h) ∧
            checkUnused cfg op.arity (modeSequence w) = .error f)) := by
  unfold decode
  split
  case h_1 hp => simp [hp, eq_comm]
  case h_2 op hp =>
    simp only [hp, Option.some.injEq, exists_eq_left', Machine.except_bind_error, pure, Except.pure, reduceCtorEq,
      and_false, exists_false, or_false, false_and, false_or]
    constructor
    · rintro (h | ⟨h, hh, hu⟩)
      exacts [.inl h, .inr ⟨⟨h, hh⟩, hu⟩]
    · rintro (h | ⟨⟨h, hh⟩, hu⟩)
      exacts [.inl h, .inr ⟨h, hh, hu⟩]

/-! ### Encode -/

theorem modeNumber_lt (ms : List Mode) : modeNumber ms < 10 ^ ms.length := by
  induction ms with
  | nil => decide
  | cons m ms ih =>
    have hm : m.digit ≤ 1 := by cases m <;> decide
    simp only [modeNumber, List.length_cons, pow_succ]
    omega

theorem digit_modeNumber (ms : List Mode) (k : Nat) :
    digit (modeNumber ms) k = ((ms[k]?).map Mode.digit).getD 0 := by
  induction ms generalizing k with
  | nil => simp [modeNumber, digit]
  | cons m ms ih =>
    have hm : m.digit ≤ 1 := by cases m <;> decide
    cases k with
    | zero =>
      simp only [digit_zero, modeNumber, List.getElem?_cons_zero, Option.map_some, Option.getD_some]
      omega
    | succ k =>
      rw [digit_succ, show modeNumber (m :: ms) / 10 = modeNumber ms by simp only [modeNumber]; omega, ih]
      simp

theorem Instr.canonicalWord_nonneg (i : Instr) : 0 ≤ i.canonicalWord := Int.natCast_nonneg _

/-- The canonical word splits into the opcode number and the mode number (R64, R78). -/
theorem opcodePair_canonicalWord (i : Instr) : opcodePair i.canonicalWord = (i.opcode.number : Int) := by
  rw [opcodePair_of_nonneg i.canonicalWord_nonneg]
  have := i.opcode.number_pos
  unfold Instr.canonicalWord
  omega

theorem modeSequence_canonicalWord (i : Instr) :
    modeSequence i.canonicalWord = modeNumber (i.readOperands.map ReadOperand.mode) := by
  rw [modeSequence_of_nonneg i.canonicalWord_nonneg]
  have := i.opcode.number_pos
  unfold Instr.canonicalWord
  rw [Int.toNat_natCast]
  omega

end Sys2Proof
end

