-- ==== Sys2Proof/Laws/Step.lean ====
section
/-! SUPPORT. Everything a step and a meaning can do, said once: proofs about all instructions cite `step_next` and
`exec_effect` and do not unfold the meanings. -/

namespace Sys2Proof.Machine

/-! ### The step -/

/-- Everything a step that answers a next state can be: the machine is not stopped, and the fetch raised a fault, or the
fetched instruction ran. -/
theorem step_next {s t : State} :
    step s = .next t ↔
      s.halted = false ∧ s.fault = none ∧
        ((∃ k, s.fetch = .error k ∧ t = s.setFault (some k)) ∨ ∃ i, s.fetch = .ok i ∧ exec i s = .next t) := by
  unfold step
  cases hh : s.halted with
  | true => simp
  | false =>
    cases hf : s.fault with
    | some k => simp
    | none =>
      cases hi : s.fetch with
      | error k => simp [State.raise, eq_comm]
      | ok i => simp

/-- Every meaning answers a next state: none stops. -/
theorem exec_next (i : Instr) (s : State) : ∃ t, exec i s = .next t := by
  have commit : ∀ (u : State) r, ∃ t, u.commit r = .next t := by
    intro u r
    rcases State.commit_cases u r with ⟨t, _, h⟩ | ⟨k, _, h⟩
    · exact ⟨_, h⟩
    · exact ⟨_, h⟩
  cases i with
  | add a b dst => exact commit _ _
  | mul a b dst => exact commit _ _
  | input dst =>
    simp only [exec, execInput]
    split
    · exact ⟨_, rfl⟩
    · exact commit _ _
  | output a => exact commit _ _
  | jumpIfTrue a target => exact commit _ _
  | jumpIfFalse a target => exact commit _ _
  | lessThan a b dst => exact commit _ _
  | equals a b dst => exact commit _ _
  | halt => exact ⟨_, rfl⟩

/-! ### What a meaning can do -/

/-- The faults an instruction that takes no input can raise: an operand address out of range, an overflow, a jump target
out of range (R138, R141). -/
inductive Raised (s : State) (i : Instr) : FaultKind → Prop where
  | operand {r : Word} (hr : r ∈ i.raws) (hb : ¬ s.InBounds r) : Raised s i (.outOfBounds r)
  | overflow (hop : i.opcode = .add ∨ i.opcode = .mul) (ho : s.cfg.overflow = .fault) : Raised s i .arithmeticOverflow
  | target {o : ReadOperand} {t : Word} (ho : o ∈ i.readOperands) (hv : s.val o = .ok t) (hb : ¬ s.InBounds t) :
      Raised s i (.outOfBounds t)

/-- What Add, Mul, LessThan and Equals store, from the two source values. -/
inductive Result (cfg : Config) (x y : Word) : Instr → Word → Prop where
  | add {a b : ReadOperand} {dst r : Word} (h : aluAdd cfg x y = .ok r) : Result cfg x y (.add a b dst) r
  | mul {a b : ReadOperand} {dst r : Word} (h : aluMul cfg x y = .ok r) : Result cfg x y (.mul a b dst) r
  | lessThan {a b : ReadOperand} {dst : Word} : Result cfg x y (.lessThan a b dst) (aluLt x y)
  | equals {a b : ReadOperand} {dst : Word} : Result cfg x y (.equals a b dst) (aluEq x y)

/-- The next states of a meaning, one constructor for each way it ends. -/
inductive Effect (s : State) : Instr → State → Prop where
  | raised {i : Instr} {k : FaultKind} (hi : i.opcode ≠ .input) (hk : Raised s i k) : Effect s i (s.setFault (some k))
  | stored {i : Instr} {a b : ReadOperand} {dst x y r : Word} (hro : i.readOperands = [a, b])
      (hraws : i.raws = [a.raw, b.raw, dst]) (hx : s.val a = .ok x) (hy : s.val b = .ok y)
      (hr : Result s.cfg x y i r) (hb : s.InBounds dst) :
      Effect s i ((s.setMem (s.mem.set (Int.toNat dst) r)).advance 4)
  | waits {dst : Word} (h : s.input = []) : Effect s (.input dst) s
  | malformed {dst : Word} {rest : List InputItem} (h : s.input = .malformed :: rest) :
      Effect s (.input dst) ((s.setInput rest).setFault (some .inputParseFailure))
  | inputOutOfBounds {dst v : Word} {rest : List InputItem} (h : s.input = .value v :: rest) (hb : ¬ s.InBounds dst) :
      Effect s (.input dst) ((s.setInput rest).setFault (some (.outOfBounds dst)))
  | inputStored {dst v : Word} {rest : List InputItem} (h : s.input = .value v :: rest) (hb : s.InBounds dst) :
      Effect s (.input dst) (((s.setInput rest).setMem (s.mem.set (Int.toNat dst) v)).advance 2)
  | emitted {a : ReadOperand} {x : Word} (hx : s.val a = .ok x) : Effect s (.output a) ((s.outPut x).advance 2)
  | jumped {i : Instr} {a target : ReadOperand} {c t : Word} (hro : i.readOperands = [a, target])
      (hi : (i = .jumpIfTrue a target ∧ c ≠ 0) ∨ (i = .jumpIfFalse a target ∧ c = 0)) (hc : s.val a = .ok c)
      (ht : s.val target = .ok t) (hb : s.InBounds t) : Effect s i (s.setPc (Int.toNat t))
  | fellThrough {i : Instr} {a target : ReadOperand} {c t : Word} (hro : i.readOperands = [a, target])
      (hi : (i = .jumpIfTrue a target ∧ c = 0) ∨ (i = .jumpIfFalse a target ∧ c ≠ 0)) (hc : s.val a = .ok c)
      (ht : s.val target = .ok t) : Effect s i (s.advance 3)
  | stopped : Effect s .halt (s.setHalted true)

/-- A sequence that resolves two operands and goes on: it raises for the first that fails, or goes on with both values. -/
theorem State.commit_two {s t : State} {a b : ReadOperand} {f : Word → Word → Except FaultKind State}
    (h : s.commit (do let x ← s.val a; let y ← s.val b; f x y) = .next t) :
    (∃ o, (o = a ∨ o = b) ∧ ¬ s.InBounds o.raw ∧ t = s.setFault (some (.outOfBounds o.raw))) ∨
      ∃ x y, s.val a = .ok x ∧ s.val b = .ok y ∧ s.commit (f x y) = .next t := by
  cases hx : s.val a with
  | error k =>
    obtain ⟨_, hb, rfl⟩ := State.val_error.mp hx
    rw [hx] at h
    exact .inl ⟨a, .inl rfl, hb, (Host.Outcome.next.inj h).symm⟩
  | ok x =>
    cases hy : s.val b with
    | error k =>
      obtain ⟨_, hb, rfl⟩ := State.val_error.mp hy
      rw [hx, hy] at h
      exact .inl ⟨b, .inr rfl, hb, (Host.Outcome.next.inj h).symm⟩
    | ok y =>
      rw [hx, hy] at h
      exact .inr ⟨x, y, rfl, rfl, h⟩

/-- A sequence that stores a result and advances: it raises where the result or the address does, or stores. -/
theorem State.commit_store {s t : State} {g : Except FaultKind Word} {dst : Word}
    (h : s.commit (do let r ← g; let u ← s.memWrite dst r; return u.advance 4) = .next t) :
    (∃ k, g = .error k ∧ t = s.setFault (some k)) ∨
      (¬ s.InBounds dst ∧ t = s.setFault (some (.outOfBounds dst))) ∨
      ∃ r, g = .ok r ∧ s.InBounds dst ∧ t = (s.setMem (s.mem.set (Int.toNat dst) r)).advance 4 := by
  cases g with
  | error k => exact .inl ⟨k, rfl, (Host.Outcome.next.inj h).symm⟩
  | ok r =>
    by_cases hb : s.InBounds dst
    · change s.commit (do let u ← s.memWrite dst r; return u.advance 4) = .next t at h
      rw [State.memWrite_ok.mpr ⟨hb, rfl⟩] at h
      exact .inr (.inr ⟨r, rfl, hb, (Host.Outcome.next.inj h).symm⟩)
    · change s.commit (do let u ← s.memWrite dst r; return u.advance 4) = .next t at h
      rw [State.memWrite_error.mpr ⟨hb, rfl⟩] at h
      exact .inr (.inl ⟨hb, (Host.Outcome.next.inj h).symm⟩)

/-- The four instructions of the shape `dst <- g(a, b)`. -/
theorem effect_of_store {s t : State} {i : Instr} {a b : ReadOperand} {dst : Word}
    {g : Word → Word → Except FaultKind Word} (hro : i.readOperands = [a, b]) (hraws : i.raws = [a.raw, b.raw, dst])
    (hop : i.opcode ≠ .input) (hg : ∀ x y r, g x y = .ok r → Result s.cfg x y i r)
    (he : ∀ x y k, g x y = .error k → Raised s i k)
    (h : s.commit (do let x ← s.val a; let y ← s.val b; let r ← g x y; let u ← s.memWrite dst r; return u.advance 4)
      = .next t) : Effect s i t := by
  rcases State.commit_two h with ⟨o, ho, hb, rfl⟩ | ⟨x, y, hx, hy, h⟩
  · refine .raised hop (.operand ?_ hb)
    rw [hraws]
    rcases ho with rfl | rfl <;> simp
  · rcases State.commit_store h with ⟨k, hk, rfl⟩ | ⟨hb, rfl⟩ | ⟨r, hr, hb, rfl⟩
    · exact .raised hop (he x y k hk)
    · exact .raised hop (.operand (by rw [hraws]; simp) hb)
    · exact .stored hro hraws hx hy (hg x y r hr) hb

/-- The two conditional jumps, taken where `P` holds of the condition. -/
theorem effect_of_jump {s t : State} {i : Instr} {a target : ReadOperand} {P : Word → Prop} [DecidablePred P]
    (hi : (i = .jumpIfTrue a target ∧ ∀ c, P c ↔ c ≠ 0) ∨ (i = .jumpIfFalse a target ∧ ∀ c, P c ↔ c = 0))
    (h : s.commit (do let c ← s.val a; let p ← s.val target; if P c then s.jumpTo p else .ok (s.advance 3)) = .next t) :
    Effect s i t := by
  have hro : i.readOperands = [a, target] := by rcases hi with ⟨rfl, _⟩ | ⟨rfl, _⟩ <;> rfl
  have hraws : i.raws = [a.raw, target.raw] := by rcases hi with ⟨rfl, _⟩ | ⟨rfl, _⟩ <;> rfl
  have hop : i.opcode ≠ .input := by rcases hi with ⟨rfl, _⟩ | ⟨rfl, _⟩ <;> simp [Instr.opcode]
  rcases State.commit_two h with ⟨o, ho, hb, rfl⟩ | ⟨c, p, hc, hp, h⟩
  · refine .raised hop (.operand ?_ hb)
    rw [hraws]
    rcases ho with rfl | rfl <;> simp
  · by_cases hP : P c
    · rw [if_pos hP] at h
      by_cases hb : s.InBounds p
      · rw [State.jumpTo_ok.mpr ⟨hb, rfl⟩] at h
        obtain rfl := Host.Outcome.next.inj h
        refine .jumped hro ?_ hc hp hb
        rcases hi with ⟨rfl, hPc⟩ | ⟨rfl, hPc⟩
        exacts [.inl ⟨rfl, (hPc c).mp hP⟩, .inr ⟨rfl, (hPc c).mp hP⟩]
      · rw [State.jumpTo_error.mpr ⟨hb, rfl⟩] at h
        obtain rfl := Host.Outcome.next.inj h
        exact .raised hop (.target (o := target) (by rw [hro]; simp) hp hb)
    · rw [if_neg hP] at h
      obtain rfl := Host.Outcome.next.inj h
      refine .fellThrough hro ?_ hc hp
      rcases hi with ⟨rfl, hPc⟩ | ⟨rfl, hPc⟩
      exacts [.inl ⟨rfl, not_not.mp (mt (hPc c).mpr hP)⟩, .inr ⟨rfl, mt (hPc c).mpr hP⟩]

/-- Everything a meaning can do: each of its next states is one of `Effect`'s. -/
theorem exec_effect {i : Instr} {s t : State} (h : exec i s = .next t) : Effect s i t := by
  cases i with
  | add a b dst =>
    refine effect_of_store (g := aluAdd s.cfg) rfl rfl (by simp [Instr.opcode]) (fun _ _ _ hr => .add hr) ?_ h
    intro x y k hk
    obtain ⟨_, ho, rfl⟩ := narrow_error.mp hk
    exact .overflow (.inl rfl) ho
  | mul a b dst =>
    refine effect_of_store (g := aluMul s.cfg) rfl rfl (by simp [Instr.opcode]) (fun _ _ _ hr => .mul hr) ?_ h
    intro x y k hk
    obtain ⟨_, ho, rfl⟩ := narrow_error.mp hk
    exact .overflow (.inr rfl) ho
  | lessThan a b dst =>
    refine effect_of_store (g := fun x y => .ok (aluLt x y)) rfl rfl (by simp [Instr.opcode]) ?_ (by simp) h
    intro x y r hr
    rw [← Except.ok.inj hr]
    exact .lessThan
  | equals a b dst =>
    refine effect_of_store (g := fun x y => .ok (aluEq x y)) rfl rfl (by simp [Instr.opcode]) ?_ (by simp) h
    intro x y r hr
    rw [← Except.ok.inj hr]
    exact .equals
  | input dst =>
    simp only [exec, execInput] at h
    split at h
    case h_1 hin => rw [← Host.Outcome.next.inj h]; exact .waits hin
    case h_2 item rest hin =>
      cases item with
      | malformed => rw [← Host.Outcome.next.inj h]; exact .malformed hin
      | value v =>
        change (s.setInput rest).commit (do let u ← (s.setInput rest).memWrite dst v; return u.advance 2) = .next t at h
        by_cases hb : s.InBounds dst
        · rw [State.memWrite_ok (s := s.setInput rest) |>.mpr ⟨hb, rfl⟩] at h
          rw [← Host.Outcome.next.inj h]
          exact .inputStored hin hb
        · rw [State.memWrite_error (s := s.setInput rest) |>.mpr ⟨hb, rfl⟩] at h
          rw [← Host.Outcome.next.inj h]
          exact .inputOutOfBounds hin hb
  | output a =>
    simp only [exec, execOutput] at h
    cases hx : s.val a with
    | error k =>
      obtain ⟨_, hb, rfl⟩ := State.val_error.mp hx
      rw [hx] at h
      rw [← Host.Outcome.next.inj h]
      exact .raised (by simp [Instr.opcode]) (.operand (by simp [Instr.raws]) hb)
    | ok x =>
      rw [hx] at h
      rw [← Host.Outcome.next.inj h]
      exact .emitted hx
  | jumpIfTrue a target => exact effect_of_jump (P := fun c => c ≠ 0) (.inl ⟨rfl, fun _ => Iff.rfl⟩) h
  | jumpIfFalse a target => exact effect_of_jump (P := fun c => c = 0) (.inr ⟨rfl, fun _ => Iff.rfl⟩) h
  | halt => rw [← Host.Outcome.next.inj h]; exact .stopped

end Sys2Proof.Machine
end

