-- ==== Sys2Proof/Laws/HostOps.lean ====
section
/-! SUPPORT. The host's requests: one lemma per request. -/

namespace Sys2Proof.Machine

theorem State.load_some {s t : State} {prog : List Int} :
    s.load prog = some t ↔
      (prog.length ≤ s.cfg.nMax ∧ ∀ v ∈ prog, InRange s.cfg.wordBits v) ∧
        t = { s with mem := Memory.ofWords prog, pc := 0, halted := false, fault := none } := by
  unfold State.load
  split
  case isTrue h => exact ⟨fun e => ⟨h, (Option.some.inj e).symm⟩, fun e => by rw [e.2]⟩
  case isFalse h => exact ⟨fun e => by simp at e, fun e => absurd e.1 h⟩

theorem State.hostWrite_some {s t : State} {a v : Int} :
    s.hostWrite a v = some t ↔
      (s.InBounds a ∧ InRange s.cfg.wordBits v) ∧ t = s.setMem (s.mem.set a.toNat v) := by
  unfold State.hostWrite
  split
  case isTrue h => exact ⟨fun e => ⟨h, (Option.some.inj e).symm⟩, fun e => by rw [e.2]⟩
  case isFalse h => exact ⟨fun e => by simp at e, fun e => absurd e.1 h⟩

theorem State.hostRead_some {s : State} {a : Int} {v : Word} :
    s.hostRead a = some v ↔ s.InBounds a ∧ v = s.mem.get a.toNat := by
  unfold State.hostRead
  split
  case isTrue h => exact ⟨fun e => ⟨h, (Option.some.inj e).symm⟩, fun e => by rw [e.2]⟩
  case isFalse h => exact ⟨fun e => by simp at e, fun e => absurd e.1 h⟩

/-- An item the adaptor delivers is one the channel can carry (R37). -/
theorem InputItem.ofLine_inRange (W : Nat) (line : Option Int) : (InputItem.ofLine W line).InRange W := by
  unfold InputItem.ofLine
  split
  case h_1 n =>
    split
    case isTrue h => exact h
    case isFalse => trivial
  case h_2 => trivial

/-- The step the host requests is the machine's, where there is one (R42). -/
theorem State.hostStep_of_next {s t : State} (h : step s = .next t) : s.hostStep = t := by
  simp [State.hostStep, h]

end Sys2Proof.Machine
end

