-- ==== Sys2Proof/Laws/PerInstr.lean ====
section
/-! SUPPORT. Facts about every instruction as syntax, one lemma per constructor. -/

namespace Sys2Proof.Laws

/-! ### The words of an encoding are as many as the instruction's width (R63, R67) -/

def EncodedWidth.Statement (i : Instr) : Prop := (encode i).length = i.width

theorem EncodedWidth.add (a b : ReadOperand) (dst : Word) : EncodedWidth.Statement (.add a b dst) := rfl
theorem EncodedWidth.mul (a b : ReadOperand) (dst : Word) : EncodedWidth.Statement (.mul a b dst) := rfl
theorem EncodedWidth.input (dst : Word) : EncodedWidth.Statement (.input dst) := rfl
theorem EncodedWidth.output (a : ReadOperand) : EncodedWidth.Statement (.output a) := rfl
theorem EncodedWidth.jumpIfTrue (a target : ReadOperand) : EncodedWidth.Statement (.jumpIfTrue a target) := rfl
theorem EncodedWidth.jumpIfFalse (a target : ReadOperand) : EncodedWidth.Statement (.jumpIfFalse a target) := rfl
theorem EncodedWidth.lessThan (a b : ReadOperand) (dst : Word) : EncodedWidth.Statement (.lessThan a b dst) := rfl
theorem EncodedWidth.equals (a b : ReadOperand) (dst : Word) : EncodedWidth.Statement (.equals a b dst) := rfl
theorem EncodedWidth.halt : EncodedWidth.Statement .halt := rfl

/-! ### The read operands come before the write operand, and every operand has one cell (R66, R78) -/

def ReadOperandsFirst.Statement (i : Instr) : Prop :=
  i.readOperands.map ReadOperand.raw <+: i.raws ∧ i.raws.length = i.opcode.arity

theorem ReadOperandsFirst.add (a b : ReadOperand) (dst : Word) : ReadOperandsFirst.Statement (.add a b dst) :=
  ⟨⟨[dst], rfl⟩, rfl⟩
theorem ReadOperandsFirst.mul (a b : ReadOperand) (dst : Word) : ReadOperandsFirst.Statement (.mul a b dst) :=
  ⟨⟨[dst], rfl⟩, rfl⟩
theorem ReadOperandsFirst.input (dst : Word) : ReadOperandsFirst.Statement (.input dst) := ⟨⟨[dst], rfl⟩, rfl⟩
theorem ReadOperandsFirst.output (a : ReadOperand) : ReadOperandsFirst.Statement (.output a) := ⟨⟨[], rfl⟩, rfl⟩
theorem ReadOperandsFirst.jumpIfTrue (a target : ReadOperand) :
    ReadOperandsFirst.Statement (.jumpIfTrue a target) := ⟨⟨[], rfl⟩, rfl⟩
theorem ReadOperandsFirst.jumpIfFalse (a target : ReadOperand) :
    ReadOperandsFirst.Statement (.jumpIfFalse a target) := ⟨⟨[], rfl⟩, rfl⟩
theorem ReadOperandsFirst.lessThan (a b : ReadOperand) (dst : Word) :
    ReadOperandsFirst.Statement (.lessThan a b dst) := ⟨⟨[dst], rfl⟩, rfl⟩
theorem ReadOperandsFirst.equals (a b : ReadOperand) (dst : Word) :
    ReadOperandsFirst.Statement (.equals a b dst) := ⟨⟨[dst], rfl⟩, rfl⟩
theorem ReadOperandsFirst.halt : ReadOperandsFirst.Statement .halt := ⟨⟨[], rfl⟩, rfl⟩

end Sys2Proof.Laws
end

