-- ==== Sys2Proof/Tests/Slice0.lean ====
section
/-! SUPPORT. Tests and witnesses. The expected results are the spec's: the vectors of spec/95_test_vectors.md (named V-… and
W1), the table of spec/30_encoding.md R77, and the words written out from R64 and R66. -/

namespace Sys2Proof.Tests

open Sys2Proof.Machine Sys2Proof.Claims

/-- A machine with default parameters that holds a program, at some `pc`, with items in the input channel. -/
def machine (prog : List Int) (pc : Nat := 0) (input : List InputItem := []) : State :=
  { State.reset with mem := Memory.ofWords prog, pc := pc, input := input }

/-- The same machine with other parameters. -/
def withParams (cfg : Config) (s : State) : State := { s with cfg := cfg }

/-- The defaults with `OVERFLOW_POLICY = wrap`, with `VARIANT = reduced`, with `UNUSED_MODE_DIGITS = validate`. -/
def wrapping : Config := { Config.standard with overflow := .wrap }
def reduced : Config := { Config.standard with variant := .reduced }
def validating : Config := { Config.standard with unusedDigits := .validate }

/-- The next state of an outcome, where it is one. -/
def nextOf : Outcome → Option State
  | .next t => some t
  | .fault _ => none
  | .refused _ => none

/-- Memory and `pc` after one step. -/
def memAndPc (s : State) : Option (Memory × Nat) := (nextOf (step s)).map (fun t => (t.mem, t.pc))

/-- The fault register, memory and `pc` after one step. -/
def faultAndPc (s : State) : Option (Option FaultKind × Memory × Nat) :=
  (nextOf (step s)).map (fun t => (t.fault, t.mem, t.pc))

/-! ### WellFormed refuses an ill-formed term for each check -/

theorem test_wellFormed_refuses_raw_out_of_range :
    ¬ (Instr.add ⟨.immediate, 9223372036854775808⟩ ⟨.immediate, 0⟩ 0).WellFormed Config.standard := by decide

theorem test_wellFormed_refuses_opcode_outside_variant : ¬ (Instr.input 0).WellFormed reduced := by decide

theorem test_wellFormed_refuses_mode_outside_variant :
    ¬ (Instr.add ⟨.immediate, 1⟩ ⟨.position, 0⟩ 0).WellFormed reduced := by decide

theorem test_wellFormed_accepts_boundary :
    (Instr.add ⟨.immediate, 9223372036854775807⟩ ⟨.position, -9223372036854775808⟩ 0).WellFormed Config.standard := by
  decide

/-! ### Decoding, every constructor's word written out from R64 and R66: `...CBAOO` -/

/-- `C=0, B=0, A=1, OO=01`. -/
theorem test_decode_add :
    decodeWords Config.standard [101, 10, 5, 0] = .ok (.add ⟨.immediate, 10⟩ ⟨.position, 5⟩ 0, []) := by decide

/-- `C=0, B=1, A=0, OO=02` (the example of R64). -/
theorem test_decode_mul :
    decodeWords Config.standard [1002, 4, 3, 4, 33] = .ok (.mul ⟨.position, 4⟩ ⟨.immediate, 3⟩ 4, [33]) := by decide

/-- `A=1, OO=03`: the digit of a destination is accepted. -/
theorem test_decode_input : decodeWords Config.standard [103, 3, 99] = .ok (.input 3, [99]) := by decide

/-- `A=1, OO=04`. -/
theorem test_decode_output : decodeWords Config.standard [104, -5] = .ok (.output ⟨.immediate, -5⟩, []) := by decide

/-- `B=1, A=0, OO=05` (program P3; notes/assumptions/21.md). -/
theorem test_decode_jumpIfTrue :
    decodeWords Config.standard [1005, 10, 0] = .ok (.jumpIfTrue ⟨.position, 10⟩ ⟨.immediate, 0⟩, []) := by decide

/-- The indirect jumps of R123 by R64: `B=0, A=0` and `B=0, A=1`. -/
theorem test_decode_indirect_jumps :
    decodeWords Config.standard [5, 8, 9] = .ok (.jumpIfTrue ⟨.position, 8⟩ ⟨.position, 9⟩, []) ∧
      decodeWords Config.standard [105, 1, 9] = .ok (.jumpIfTrue ⟨.immediate, 1⟩ ⟨.position, 9⟩, []) := by decide

/-- `B=0, A=1, OO=06`. -/
theorem test_decode_jumpIfFalse :
    decodeWords Config.standard [106, 0, 4] = .ok (.jumpIfFalse ⟨.immediate, 0⟩ ⟨.position, 4⟩, []) := by decide

/-- `C=1, B=1, A=1, OO=07`. -/
theorem test_decode_lessThan :
    decodeWords Config.standard [11107, 3, 8, 5] = .ok (.lessThan ⟨.immediate, 3⟩ ⟨.immediate, 8⟩ 5, []) := by decide

/-- `C=0, B=1, A=0, OO=08` (program P4). -/
theorem test_decode_equals :
    decodeWords Config.standard [1008, 9, 8, 10] = .ok (.equals ⟨.position, 9⟩ ⟨.immediate, 8⟩ 10, []) := by decide

/-- `OO=99`. -/
theorem test_decode_halt : decodeWords Config.standard [99, 7] = .ok (.halt, [7]) := by decide

/-- The canonical words of R78. -/
theorem test_encode_canonical :
    encode (.mul ⟨.position, 4⟩ ⟨.immediate, 3⟩ 4) = [1002, 4, 3, 4] ∧ encode (.input 7) = [3, 7] ∧
      encode (.jumpIfTrue ⟨.immediate, 1⟩ ⟨.immediate, 7⟩) = [1105, 1, 7] := by decide

/-- V-D11 and V-H3 under `validate`, V-D12 and V-D13 under `reduced`. -/
theorem test_decode_other_parameters :
    decode validating 2000004 = .error (.invalidAddressingMode 2) ∧
      decode validating 20099 = .error (.invalidAddressingMode 2) ∧ decode validating 10099 = .ok .halt ∧
      decode reduced 3 = .error (.unknownOpcode 3) ∧ decode reduced 101 = .error (.invalidAddressingMode 1) := by
  decide

/-- A row of bits: the first word in the low bits, the next words above it, absent ones 0. -/
theorem test_tableWords :
    decodeTableWord 8 1 = some (.add ⟨.position, 0⟩ ⟨.position, 0⟩ 0) ∧ decodeTableWord 8 99 = some .halt ∧
      decodeTableWord 128 (104 + 2 ^ 64 * (2 ^ 64 - 7)) = some (.output ⟨.immediate, -7⟩) ∧
      decodeTableWord 8 0 = none := by decide

/-- The step after `withFetchWord` runs the word's instruction: Add `[0], [0], [0]` doubles its own word. -/
theorem test_withFetchWord :
    memAndPc (State.reset.withFetchWord 8 1) = some (Memory.ofWords [2, 0, 0, 0], 4) ∧
      (nextOf (step (State.reset.withFetchWord 8 99))).map State.halted = some true := by decide

/-! ### One step of each instruction -/

/-- V-ADD4: a cell that is both sources and the destination. -/
theorem test_add_same_cell :
    memAndPc (machine [1, 5, 5, 5, 99, 7]) = some (Memory.ofWords [1, 5, 5, 5, 99, 14], 4) := by decide

/-- V-ADD3 under `fault` and under `wrap`. -/
theorem test_add_overflow :
    faultAndPc (machine [1101, 9223372036854775807, 1, 0, 99]) =
        some (some .arithmeticOverflow, Memory.ofWords [1101, 9223372036854775807, 1, 0, 99], 0) ∧
      memAndPc (withParams wrapping (machine [1101, 9223372036854775807, 1, 0, 99])) =
        some (Memory.ofWords [-9223372036854775808, 9223372036854775807, 1, 0, 99], 4) := by decide

/-- V-MUL2. -/
theorem test_mul_negative :
    memAndPc (machine [2, 5, 6, 0, 99, -4, 5]) = some (Memory.ofWords [-20, 5, 6, 0, 99, -4, 5], 4) := by decide

/-- V-MUL5, exactly the lowest word, and V-MUL6, one beyond the highest. -/
theorem test_mul_range :
    memAndPc (machine [1102, -4611686018427387904, 2, 0, 99]) =
        some (Memory.ofWords [-9223372036854775808, -4611686018427387904, 2, 0, 99], 4) ∧
      (faultAndPc (machine [1102, -9223372036854775808, -1, 0, 99])).map Prod.fst =
        some (some .arithmeticOverflow) := by decide

/-- V-IN5, and V-IN4: an empty channel holds the machine. -/
theorem test_input :
    memAndPc (machine [3, 3, 99, 0] 0 [.value (-12)]) = some (Memory.ofWords [3, 3, 99, -12], 2) ∧
      nextOf (step (machine [3, 3, 99, 0])) = some (machine [3, 3, 99, 0]) := by decide

/-- V-IN2 and V-IN3: the fault is raised and the item stays taken. V-IN7: at a decode failure it is not. -/
theorem test_input_faults :
    nextOf (step (machine [3, 3, 99, 0] 0 [.malformed])) =
        some { machine [3, 3, 99, 0] with fault := some .inputParseFailure } ∧
      nextOf (step (machine [3, 9, 99] 0 [.value 5])) =
        some { machine [3, 9, 99] with fault := some (.outOfBounds 9) } ∧
      nextOf (step (machine [203, 3, 99, 0] 0 [.value 8])) =
        some { machine [203, 3, 99, 0] 0 [.value 8] with fault := some (.invalidAddressingMode 2) } := by decide

/-- V-OUT1 and V-OUT3. -/
theorem test_output :
    (nextOf (step (machine [4, 3, 99, -7]))).map (fun t => (t.output, t.pc)) = some ([-7], 2) ∧
      (nextOf (step (machine [4, 10, 99]))).map (fun t => (t.output, t.fault)) = some ([], some (.outOfBounds 10)) := by
  decide

/-- V-JT6, through two Position operands, and V-JT5, a target resolved though the jump is not taken. -/
theorem test_jumpIfTrue :
    (nextOf (step (machine [5, 4, 5, 99, 1, 6, 99]))).map State.pc = some 6 ∧
      (nextOf (step (machine [105, 0, 50, 99]))).map State.fault = some (some (.outOfBounds 50)) := by decide

/-- V-JT2, not taken with an Immediate target out of range, and V-JT3, taken to `N` or above. -/
theorem test_jumpIfTrue_target :
    (nextOf (step (machine [1105, 0, 7, 99]))).map (fun t => (t.pc, t.fault)) = some (3, none) ∧
      (nextOf (step (machine [1105, 1, 9, 99]))).map (fun t => (t.pc, t.fault)) = some (0, some (.outOfBounds 9)) := by
  decide

/-- V-JF2 and V-JF3. -/
theorem test_jumpIfFalse :
    (nextOf (step (machine [1106, 3, 0, 99]))).map State.pc = some 3 ∧
      (nextOf (step (machine [1106, 0, -1, 99]))).map (fun t => (t.pc, t.fault)) = some (0, some (.outOfBounds (-1))) := by
  decide

/-- V-LT2 and V-LT4. -/
theorem test_lessThan :
    memAndPc (machine [1107, 5, 5, 5, 99, 9]) = some (Memory.ofWords [1107, 5, 5, 5, 99, 0], 4) ∧
      ((memAndPc (machine [1107, -9223372036854775808, 9223372036854775807, 5, 99, 9])).map
        (fun p => p.1.get 5)) = some 1 := by decide

/-- V-EQ1 and V-EQ3: exactly 1, over 42. -/
theorem test_equals :
    memAndPc (machine [8, 5, 6, 7, 99, 8, 8, 0]) = some (Memory.ofWords [8, 5, 6, 7, 99, 8, 8, 1], 4) ∧
      memAndPc (machine [1108, 7, 7, 5, 99, 42]) = some (Memory.ofWords [1108, 7, 7, 5, 99, 1], 4) := by decide

/-- V-H1: the next state differs from the state in `halted` alone. -/
theorem test_halt : nextOf (step (machine [99])) = some { machine [99] with halted := true } := by decide

/-- V-E0, V-E1 and the second step of V-E2: the faults of the common step. -/
theorem test_common_step_faults :
    faultAndPc (machine []) = some (some (.outOfBounds 0), Memory.ofWords [], 0) ∧
      faultAndPc (machine [1, 0, 0]) = some (some (.outOfBounds 3), Memory.ofWords [1, 0, 0], 0) ∧
      faultAndPc (machine [2, 0, 0, 0] 4) = some (some (.outOfBounds 4), Memory.ofWords [2, 0, 0, 0], 4) := by decide

/-- V-PRIO: operand 0 first. -/
theorem test_first_fault_reported :
    (faultAndPc (machine [1, -1, -2, -3, 99])).map Prod.fst = some (some (.outOfBounds (-1))) := by decide

/-- P2: the Mul writes the next instruction, and the step after it halts. -/
theorem test_self_modifying : (machine [1002, 4, 3, 4, 33]).runFor 2 = .ok (Memory.ofWords [1002, 4, 3, 4, 99]) := by
  decide

/-- W1 to its end: `Ok` with the memory of the source's example. -/
theorem test_run_end_to_end :
    (machine [1, 9, 10, 3, 2, 3, 11, 0, 99, 30, 40, 50]).runFor 3 =
      .ok (Memory.ofWords [3500, 9, 10, 70, 2, 3, 11, 0, 99, 30, 40, 50]) := by decide

/-! ### Witnesses: for each statement with hypotheses, states and operands that meet them, at the bounds of each clause -/

theorem witness_DecodeOfEncodeIsTheInstruction :
    (Instr.lessThan ⟨.immediate, -9223372036854775808⟩ ⟨.position, 9223372036854775807⟩ 0).WellFormed Config.standard ∧
      (Instr.mul ⟨.position, 0⟩ ⟨.position, 1⟩ 2).WellFormed reduced ∧ Instr.halt.WellFormed reduced := by decide

theorem witness_DecodeFailsExactlyOnIllegalWords :
    (∀ op ∈ validOpcodes .extended, (9 : Int).tmod 100 ≠ (op.number : Int)) ∧
      (∀ op ∈ validOpcodes .extended, (98 : Int).tmod 100 ≠ (op.number : Int)) ∧
      (Opcode.add ∈ validOpcodes .extended ∧ (12101 : Int).tmod 100 = (Opcode.add.number : Int) ∧
        Examined Config.standard .add 1 ∧ ¬ Accepted .extended (modeDigitAt 12101 1) ∧
        ∀ j < 1, Accepted .extended (modeDigitAt 12101 j)) ∧
      ((20099 : Int).tmod 100 = (Opcode.halt.number : Int) ∧ Examined validating .halt 2 ∧
        ¬ Accepted .extended (modeDigitAt 20099 2) ∧ ∀ j < 2, Accepted .extended (modeDigitAt 20099 j)) := by decide

theorem witness_DecodeFailsExactlyOnIllegalWords_accepted :
    (1101 : Int).tmod 100 = (Opcode.add.number : Int) ∧
      ∀ k, Examined Config.standard .add k → Accepted .extended (modeDigitAt 1101 k) := by
  refine ⟨by decide, ?_⟩
  intro k hk
  have : k = 0 ∨ k = 1 ∨ k = 2 := by
    rcases hk with h | h
    · simp only [Opcode.arity] at h; omega
    · exact absurd h (by decide)
  rcases this with rfl | rfl | rfl <;> decide

theorem witness_NegativeWordsAreUnknownOpcodes : (-1 : Int) < 0 ∧ (-100 : Int) < 0 := by decide

theorem witness_ReducedSetIsAStrictSubset :
    (3 ≤ (3 : Int).tmod 100 ∧ (3 : Int).tmod 100 ≤ 8) ∧ (3 ≤ (8 : Int).tmod 100 ∧ (8 : Int).tmod 100 ≤ 8) ∧
      ((101 : Int).tmod 100 = 1 ∧ modeDigitAt 101 0 = 1 ∧ ∀ j < 0, modeDigitAt 101 j = 0) ∧
      ((10002 : Int).tmod 100 = 2 ∧ modeDigitAt 10002 2 = 1 ∧ ∀ j < 2, modeDigitAt 10002 j = 0) ∧
      decode { Config.standard with variant := .reduced } 1 = .ok (.add .position .position) := by decide

theorem witness_UnusedModeDigits :
    (0 ≤ (20099 : Int) ∧ Opcode.halt ∈ validOpcodes Config.standard.variant ∧
        (20099 : Int) % 100 = (Opcode.halt.number : Int) ∧ Config.standard.unusedDigits = .ignore) ∧
      (validating.unusedDigits = .validate ∧ (∀ k < 1, Accepted validating.variant (modeDigitAt 2000004 k)) ∧
        (2000004 : Int) % 100 = (Opcode.output.number : Int) ∧
        ¬ Accepted validating.variant (modeDigitAt 2000004 4) ∧
        ∀ j < 4, 1 ≤ j → Accepted validating.variant (modeDigitAt 2000004 j)) := by decide

theorem witness_DestinationDigitIsCheckedAndIgnored :
    Config.standard.variant = .extended ∧ (0 : Int) ≤ 1107 ∧ (1107 : Int) % 100 ∈ [(1 : Int), 2, 7, 8] ∧
      modeDigitAt 1107 2 = 0 ∧ (∀ j < 2, Accepted .extended (modeDigitAt 1107 j)) ∧ (3 : Int) % 100 = 3 ∧
      modeDigitAt 3 0 = 0 := by decide

theorem witness_StepRunsTheDecodedInstruction :
    Running (machine [0, 104, -5, 99] 1) ∧ WordsAtPc (machine [0, 104, -5, 99] 1) [104, -5] ∧
      decodeWords Config.standard [104, -5] = .ok (.output ⟨.immediate, -5⟩, []) := by
  refine ⟨by decide, ⟨by decide, ?_⟩, by decide⟩
  decide

theorem witness_NoStepExactlyWhereStopped :
    ({ machine [99] with halted := true } : State).halted = true ∧
      (({ machine [9] with fault := some (.unknownOpcode 9) } : State).halted = false ∧
        ({ machine [9] with fault := some (.unknownOpcode 9) } : State).fault = some (.unknownOpcode 9)) ∧
      Running (machine [99]) := by decide

theorem witness_FetchOutsideMemoryRaises :
    (Running (machine [2, 0, 0, 0] 4) ∧ (machine [2, 0, 0, 0] 4).mem.size ≤ 4) ∧
      (Running (machine []) ∧ (machine []).mem.size = 0 ∧ (machine []).pc = 0) := by decide

/-- The last clause: the load of the empty program reaches a `pc` outside memory. -/
theorem witness_FetchOutsideMemoryRaises_reached :
    Config.standard.Wf ∧ Reachable Config.standard (machine []) ∧ (machine []).mem.size ≤ (machine []).pc :=
  ⟨by decide, .loaded State.reset [] _ rfl rfl rfl (by decide), by decide⟩

theorem witness_DecodeFailureIsFatal :
    Running (machine [9]) ∧ (machine [9]).pc < (machine [9]).mem.size ∧
      decode Config.standard ((machine [9]).mem.get 0) = .error (.unknownOpcode 9) ∧
      (nextOf (step (machine [9]))).isSome = true ∧
      decode Config.standard ((machine [201, 0, 0, 0]).mem.get 0) = .error (.invalidAddressingMode 2) := by decide

theorem witness_FirstMissingOperandCellRaises :
    (Running (machine [1, 0, 0]) ∧ decode Config.standard ((machine [1, 0, 0]).mem.get 0) =
        .ok (.add .position .position) ∧ 2 < (Header.add .position .position).opcode.arity ∧
        0 + 2 < (machine [1, 0, 0]).mem.size ∧ (machine [1, 0, 0]).mem.size ≤ 0 + 1 + 2) ∧
      (machine [1, 0, 0, 0]).fetch = .ok (.add ⟨.position, 0⟩ ⟨.position, 0⟩ 0) := by decide

/-- Position operands at the first and the last address, and just outside both. -/
theorem witness_operands :
    Resolves (machine [1, 5, 5, 5, 99, 7]) ⟨.position, 0⟩ 1 ∧ Resolves (machine [1, 5, 5, 5, 99, 7]) ⟨.position, 5⟩ 7 ∧
      Resolves (machine [1, 5, 5, 5, 99, 7]) ⟨.immediate, -3⟩ (-3) ∧
      Unresolvable (machine [1, 5, 5, 5, 99, 7]) ⟨.position, -1⟩ ∧
      Unresolvable (machine [1, 5, 5, 5, 99, 7]) ⟨.position, 6⟩ :=
  ⟨⟨0, rfl, by decide, by decide⟩, ⟨5, rfl, by decide, by decide⟩, rfl, ⟨rfl, by decide⟩, ⟨rfl, by decide⟩⟩

/-- The digits of the encoding clauses, under both variants. -/
theorem witness_encodings :
    (Accepted Config.standard.variant 0 ∧ Accepted Config.standard.variant 1 ∧ Config.standard.variant = .extended) ∧
      (Accepted reduced.variant 0 ∧ ¬ Accepted reduced.variant 1) := by decide

/-- Add and Mul: an in-range result, an overflow under each policy, destinations at the bounds of memory and outside. -/
theorem witness_AddFollowsItsRule :
    Resolves (machine [1101, 9223372036854775807, 1, 0, 99]) ⟨.immediate, 9223372036854775807⟩ 9223372036854775807 ∧
      Resolves (machine [1101, 9223372036854775807, 1, 0, 99]) ⟨.immediate, 1⟩ 1 ∧
      (¬ InRange 64 (9223372036854775807 + 1) ∧ Config.standard.overflow = .fault) ∧
      AluResult Config.standard (9223372036854775807 + 0) 9223372036854775807 ∧
      AluResult wrapping (9223372036854775807 + 1) (-9223372036854775808) ∧
      Address (machine [1, 0, 0, 0]) 0 ∧ Address (machine [1, 0, 0, 0]) 3 ∧ ¬ Address (machine [1, 0, 0, 0]) 4 ∧
      ¬ Address (machine [1, 0, 0, 0]) (-1) :=
  ⟨rfl, rfl, by decide, .inl (by decide), .inr (by decide), by decide, by decide, by decide, by decide⟩

theorem witness_MulFollowsItsRule :
    Resolves (machine [2, 5, 6, 0, 99, -4, 5]) ⟨.position, 5⟩ (-4) ∧
      Resolves (machine [2, 5, 6, 0, 99, -4, 5]) ⟨.position, 6⟩ 5 ∧ AluResult Config.standard (-4 * 5) (-20) ∧
      (¬ InRange 64 (-9223372036854775808 * -1) ∧ Config.standard.overflow = .fault) ∧
      AluResult wrapping (-9223372036854775808 * -1) (-9223372036854775808) :=
  ⟨⟨5, rfl, by decide, by decide⟩, ⟨6, rfl, by decide, by decide⟩, .inl (by decide), by decide, .inr (by decide)⟩

theorem witness_InFollowsItsRule :
    (machine [3, 3, 99, 0]).input = [] ∧ (machine [3, 3, 99, 0] 0 [.malformed]).input = .malformed :: [] ∧
      (machine [3, 3, 99, 0] 0 [.value 42]).input = .value 42 :: [] ∧ Address (machine [3, 3, 99, 0]) 3 ∧
      ¬ Address (machine [3, 3, 99, 0]) 4 := by decide

theorem witness_OutFollowsItsRule :
    Resolves (machine [4, 3, 99, -7]) ⟨.position, 3⟩ (-7) ∧ Unresolvable (machine [4, 10, 99]) ⟨.position, 10⟩ :=
  ⟨⟨3, rfl, by decide, by decide⟩, rfl, by decide⟩

theorem witness_JumpsFollowTheirRules :
    Resolves (machine [1105, -1, 4, 99, 99]) ⟨.immediate, -1⟩ (-1) ∧
      Resolves (machine [1106, 0, 4, 99, 99]) ⟨.immediate, 0⟩ 0 ∧
      Resolves (machine [5, 4, 5, 99, 1, 6, 99]) ⟨.position, 5⟩ 6 ∧ Address (machine [5, 4, 5, 99, 1, 6, 99]) 6 ∧
      Unresolvable (machine [105, 0, 50, 99]) ⟨.position, 50⟩ ∧ ¬ Address (machine [1105, 1, 9, 99]) 9 :=
  ⟨rfl, rfl, ⟨5, rfl, by decide, by decide⟩, by decide, ⟨rfl, by decide⟩, by decide⟩

theorem witness_CompareFollowsItsRule :
    (Resolves (machine [1107, -1, 0, 5, 99, 9]) ⟨.immediate, -1⟩ (-1) ∧
        Resolves (machine [1107, -1, 0, 5, 99, 9]) ⟨.immediate, 0⟩ 0 ∧ (-1 : Int) < 0 ∧ (-1 : Int) ≠ 0) ∧
      (Resolves (machine [8, 5, 6, 7, 99, 8, 8, 0]) ⟨.position, 5⟩ 8 ∧
        Resolves (machine [8, 5, 6, 7, 99, 8, 8, 0]) ⟨.position, 6⟩ 8 ∧ (8 : Int) ≤ 8 ∧ (8 : Int) = 8) ∧
      Address (machine [8, 5, 6, 7, 99, 8, 8, 0]) 7 ∧ ¬ Address (machine [8, 5, 6, 7, 99, 8, 8, 0]) 8 :=
  ⟨⟨rfl, rfl, by decide, by decide⟩,
    ⟨⟨5, rfl, by decide, by decide⟩, ⟨6, rfl, by decide, by decide⟩, by decide, by decide⟩, by decide, by decide⟩

theorem witness_HaltFollowsItsRule :
    (Config.standard.unusedDigits = .ignore ∧ (0 : Int) ≤ 20099 ∧ (20099 : Int) % 100 = 99) ∧
      (validating.unusedDigits = .validate ∧ ¬ Accepted validating.variant (modeDigitAt 20099 2) ∧
        ∀ j < 2, Accepted validating.variant (modeDigitAt 20099 j)) := by decide

theorem witness_OverflowFollowsThePolicy :
    Resolves (withParams wrapping (machine [1101, 9223372036854775807, 1, 0])) ⟨.immediate, 9223372036854775807⟩
        9223372036854775807 ∧
      Resolves (withParams wrapping (machine [1101, 9223372036854775807, 1, 0])) ⟨.immediate, 1⟩ 1 ∧
      ¬ InRange 64 (9223372036854775807 + 1) ∧ wrapping.overflow = .wrap ∧ 1 ≤ wrapping.wordBits ∧
      Address (withParams wrapping (machine [1101, 9223372036854775807, 1, 0])) 0 ∧ Config.standard.overflow = .fault :=
  ⟨rfl, rfl, by decide, by decide, by decide, by decide, by decide⟩

theorem witness_InWaitsUntilAnItemIsSupplied :
    Running (machine [3, 3, 99, 0]) ∧ (machine [3, 3, 99, 0]).fetch = .ok (.input 3) ∧
      (machine [3, 3, 99, 0]).input = [] := by decide

/-- A completing and a raising `exec` of one instruction, from a state that holds no fault. -/
theorem witness_ProgramCounterUpdate :
    (machine [1105, 1, 7, 99, 0, 0, 0, 99]).fault = none ∧
      ((nextOf (exec (.jumpIfTrue ⟨.immediate, 1⟩ ⟨.immediate, 7⟩) (machine [1105, 1, 7, 99, 0, 0, 0, 99]))).map
        State.fault = some none) ∧
      ((nextOf (exec (.jumpIfTrue ⟨.immediate, 1⟩ ⟨.immediate, 9⟩) (machine [1105, 1, 9, 99]))).map State.fault =
        some (some (.outOfBounds 9))) := by decide

theorem witness_FallThroughPastTheLastCell :
    ((machine [1, 0, 0, 0]).pc < (machine [1, 0, 0, 0]).mem.size ∧
        (nextOf (step (machine [1, 0, 0, 0]))).map State.pc = some 4) ∧
      (nextOf (exec (.jumpIfTrue ⟨.immediate, 1⟩ ⟨.immediate, 3⟩) (machine [1105, 1, 3, 99]))).map
        (fun t => (t.fault, t.pc)) = some (none, 3) ∧
      (nextOf (exec (.jumpIfFalse ⟨.immediate, 0⟩ ⟨.immediate, 3⟩) (machine [1106, 0, 3, 99]))).map
        (fun t => (t.fault, t.pc)) = some (none, 3) := by decide

/-- A step that raises, one of them an In that has taken its item. -/
theorem witness_FaultsArePrecise :
    (nextOf (step (machine [1101, 1, 1, 7, 99]))).map State.fault = some (some (.outOfBounds 7)) ∧
      (nextOf (step (machine [3, 9, 99] 0 [.value 5]))).map (fun t => (t.fault, t.input)) =
        some (some (.outOfBounds 9), []) := by decide

theorem witness_FaultsAreSticky :
    ({ machine [9] with fault := some (.unknownOpcode 9) } : State).fault = some (.unknownOpcode 9) ∧
      ({ machine [9] with fault := some (.unknownOpcode 9) } : State).load [99] = some (machine [99]) ∧
      ({ machine [9] with fault := some (.unknownOpcode 9) } : State).load [9223372036854775808] = none := by decide

/-- Each clause: past the end, a decode failure, a missing cell, either operand, an overflow, a destination. -/
theorem witness_FirstFaultIsReported :
    (Running (machine [99] 1) ∧ (machine [99] 1).mem.size ≤ 1) ∧
      decode Config.standard ((machine [9]).mem.get 0) = .error (.unknownOpcode 9) ∧
      (decode Config.standard ((machine [1, 0, 0]).mem.get 0) = .ok (.add .position .position) ∧
        (machine [1, 0, 0]).mem.size < 0 + 4) ∧
      (Unresolvable (machine [1, -1, -2, -3, 99]) ⟨.position, (machine [1, -1, -2, -3, 99]).mem.get 1⟩ ∧
        0 + 4 ≤ (machine [1, -1, -2, -3, 99]).mem.size) ∧
      (Resolves (machine [1, 0, -2, -3, 99]) ⟨.position, (machine [1, 0, -2, -3, 99]).mem.get 1⟩ 1 ∧
        Unresolvable (machine [1, 0, -2, -3, 99]) ⟨.position, (machine [1, 0, -2, -3, 99]).mem.get 2⟩) ∧
      (¬ InRange 64 (9223372036854775807 + 1) ∧ ¬ Address (machine [1101, 9223372036854775807, 1, -3]) (-3)) ∧
      (InRange 64 (1 + 1) ∧ ¬ Address (machine [1101, 1, 1, 7, 99]) 7) :=
  ⟨by decide, by decide, by decide, ⟨⟨rfl, by decide⟩, by decide⟩, ⟨⟨0, by decide, by decide, by decide⟩, rfl, by decide⟩,
    by decide, by decide⟩

/-- Two faults, with different codes. -/
theorem witness_CauseCodes :
    ({ machine [9] with fault := some (.unknownOpcode 9) } : State).fault = some (.unknownOpcode 9) ∧
      ({ machine [9] with fault := some .arithmeticOverflow } : State).fault = some .arithmeticOverflow := by decide

/-- A step that completes by each of the effects R108 lists, and one that raises. -/
theorem witness_StepPerformsNothingMore :
    (nextOf (step (machine [1, 5, 5, 5, 99, 7]))).map (fun t => (t.fault, t.mem.get 5)) = some (none, 14) ∧
      (nextOf (step (machine [3, 3, 99, 0] 0 [.value 42]))).map (fun t => (t.fault, t.input)) = some (none, []) ∧
      (nextOf (step (machine [104, -5, 99]))).map (fun t => (t.fault, t.output)) = some (none, [-5]) ∧
      (nextOf (step (machine [99]))).map (fun t => (t.fault, t.halted)) = some (none, true) ∧
      (nextOf (step (machine [9]))).map State.fault = some (some (.unknownOpcode 9)) := by decide

theorem witness_OnlyHaltHalts :
    (machine [9]).load [99] = some (machine [99]) ∧
      ((machine [99]).halted = false ∧ ((machine [99]).serve .step).halted = true) ∧
      ({ machine [99] with halted := true } : State).halted = true := by decide

theorem witness_ParametersNeverChange : (nextOf (step (machine [104, -5, 99]))).isSome = true := by decide

theorem witness_MemoryNeverGrows :
    (nextOf (step (machine [1, 0, 0, 0]))).map (fun t => t.mem.size) = some 4 ∧
      ((machine [1, 0, 0, 0]).mem.size : Int) ≤ 4 := by decide

/-- Two states that agree on what a step reads, and differ in the rest of the input and in the output. -/
theorem witness_StepReadsNothingElse :
    ((machine [3, 3, 99, 0] 0 [.value 1, .value 2]).input.head? =
        ({ machine [3, 3, 99, 0] 0 [.value 1] with output := [9] } : State).input.head?) ∧
      (nextOf (step (machine [3, 3, 99, 0] 0 [.value 1, .value 2]))).isSome = true := by decide

/-- An Add that writes the next instruction word, one that writes a word that does not decode there, and one that writes
the next instruction's operand. -/
theorem witness_StoresAreSeenByTheNextFetch :
    (Running (machine [1101, 90, 9, 4, 0]) ∧
        (machine [1101, 90, 9, 4, 0]).fetch = .ok (.add ⟨.immediate, 90⟩ ⟨.immediate, 9⟩ 4) ∧
        AluResult Config.standard (90 + 9) 99 ∧ Address (machine [1101, 90, 9, 4, 0]) 4 ∧
        decode Config.standard 99 = .ok .halt) ∧
      (AluResult Config.standard (4 + 5) 9 ∧ decode Config.standard 9 = .error (.unknownOpcode 9)) ∧
      ((machine [1101, 4, 5, 5, 104, 0]).fetch = .ok (.add ⟨.immediate, 4⟩ ⟨.immediate, 5⟩ 5) ∧
        Address (machine [1101, 4, 5, 5, 104, 0]) 5 ∧
        decode Config.standard ((machine [1101, 4, 5, 5, 104, 0]).mem.get 4) = .ok (.output .immediate)) :=
  ⟨⟨by decide, by decide, .inl (by decide), by decide, by decide⟩, ⟨.inl (by decide), by decide⟩, by decide, by decide,
    by decide⟩

/-- V-SM1: an Add that overwrites its own instruction word, and one that overwrites its last operand cell. -/
theorem witness_OwnCellsAreReadBeforeTheWrite :
    (machine [1, 0, 0, 0, 99]).fetch = .ok (.add ⟨.position, 0⟩ ⟨.position, 0⟩ 0) ∧
      Resolves (machine [1, 0, 0, 0, 99]) ⟨.position, 0⟩ 1 ∧ AluResult Config.standard (1 + 1) 2 ∧
      (0 : Int) = ((0 + 0 : Nat) : Int) ∧
      (machine [1101, 2, 2, 3]).fetch = .ok (.add ⟨.immediate, 2⟩ ⟨.immediate, 2⟩ 3) ∧
      (3 : Int) = ((0 + 3 : Nat) : Int) :=
  ⟨by decide, ⟨0, rfl, by decide, by decide⟩, .inl (by decide), by decide, by decide, by decide⟩

/-- A well-formed state that is not the reset state: a program, an item and an output. -/
theorem witness_wellFormed_state : ({ machine [4, 3, 99, -7] 2 [.value 1, .malformed] with output := [-7] } : State).Wf where
  cfg := by decide
  size := by decide
  mem := by decide
  words := by decide
  pc := by decide
  precise := by intro k hk; exact absurd hk (by simp [machine, State.reset])
  input := by
    intro item hitem
    change item ∈ [InputItem.value 1, InputItem.malformed] at hitem
    simp only [List.mem_cons, List.not_mem_nil, or_false] at hitem
    rcases hitem with rfl | rfl
    · exact (by decide : InRange 64 1)
    · trivial
  output := by decide

/-- Steps from it and from a faulting instruction, and a reachable state. -/
theorem witness_StepKeepsStatesWellFormed :
    (nextOf (step ({ machine [4, 3, 99, -7] 2 [.value 1, .malformed] with output := [-7] } : State))).map State.halted =
      some true := by decide

theorem witness_HostRequestsKeepStatesWellFormed :
    ({ machine [4, 3, 99, -7] 2 [.value 1, .malformed] with output := [-7] } : State).Wf := witness_wellFormed_state

theorem witness_ReachableStatesAreWellFormed : Config.standard.Wf ∧ Reachable Config.standard (machine [99]) :=
  ⟨by decide, .loaded State.reset [99] _ rfl rfl rfl (by decide)⟩

theorem witness_LoadSetsEveryPieceOfState :
    (Config.standard.nMax < 2 ^ 63 + 1) ∧ (¬ InRange Config.standard.wordBits 9223372036854775808) ∧
      (([99, -9223372036854775808] : List Int).length ≤ Config.standard.nMax ∧
        ∀ v ∈ ([99, -9223372036854775808] : List Int), InRange Config.standard.wordBits v) := by decide

theorem witness_LoadSetsEveryPieceOfState_too_long :
    ({ machine [] with cfg := { Config.standard with nMax := 1 } } : State).cfg.nMax < ([1, 2] : List Int).length := by
  decide

/-- Two machines in different states with the same parameters and channels. -/
theorem witness_LoadForgetsTheEarlierRun :
    ({ machine [9] with halted := true, pc := 1 } : State) ≠ machine [99] ∧
      ({ machine [9] with halted := true, pc := 1 } : State).cfg = (machine [99]).cfg := by decide

theorem witness_HostReadsAndWrites :
    Address (machine [1, 2]) 0 ∧ Address (machine [1, 2]) 1 ∧ ¬ Address (machine [1, 2]) 2 ∧
      ¬ Address (machine [1, 2]) (-1) ∧ InRange 64 9223372036854775807 ∧ ¬ InRange 64 9223372036854775808 := by decide

theorem witness_HostStepOnAStoppedMachine :
    ({ machine [99] with halted := true } : State).Stopped ∧
      (nextOf (step (machine [99]))).isSome = true := by decide

theorem witness_RunRepeatsTheStep :
    (machine [99]).runFor 1 ≠ .noConclusion ∧ (machine [9]).runFor 1 = .err (.unknownOpcode 9) ∧
      (machine [1105, 1, 0]).runFor 3 = .noConclusion := by decide

theorem witness_InputItemsArriveInOrder :
    InRange Config.standard.wordBits (-9223372036854775808) ∧ ¬ InRange Config.standard.wordBits 9223372036854775808 := by
  decide

end Sys2Proof.Tests
end

/-! SUPPORT. What keeps a state well-formed (`State.Wf`), one rule per state operation, and which words and faults a
fetched instruction brings with it. The obligations of spec/00_scope.md follow. -/

namespace Sys2Proof.Machine

/-! ### One rule per state operation -/

section WfRules

variable {s : State}

theorem State.Wf.setFault (hs : s.Wf) (hh : s.halted = false) {k : FaultKind} (hk : k.Wf s.cfg s.mem.size) :
    (s.setFault (some k)).Wf :=
  { hs with precise := fun _ h => Option.some.inj h ▸ ⟨hh, hk⟩ }

theorem State.Wf.setHalted (hs : s.Wf) (hf : s.fault = none) (b : Bool) : (s.setHalted b).Wf :=
  { hs with precise := fun k h => by rw [State.setHalted_fault, hf] at h; contradiction }

theorem State.Wf.setPc (hs : s.Wf) {t : Nat} (ht : t ≤ s.mem.size) : (s.setPc t).Wf :=
  { hs with pc := ht }

theorem State.Wf.advance (hs : s.Wf) {n : Nat} (hn : s.pc + n ≤ s.mem.size) : (s.advance n).Wf := hs.setPc hn

theorem State.Wf.setInput (hs : s.Wf) {items : List InputItem} (h : ∀ item ∈ items, item.InRange s.cfg.wordBits) :
    (s.setInput items).Wf :=
  { hs with input := h }

theorem State.Wf.outPut (hs : s.Wf) {v : Word} (hv : InRange s.cfg.wordBits v) : (s.outPut v).Wf :=
  { hs with output := List.forall_mem_append.mpr ⟨hs.output, by simpa using hv⟩ }

/-- A store of a `W`-bit word at an address of memory. -/
theorem State.Wf.store (hs : s.Wf) {a : Int} {v : Word} (ha : s.InBounds a) (hv : InRange s.cfg.wordBits v) :
    (s.setMem (s.mem.set a.toNat v)).Wf :=
  { hs with
    mem := Memory.set_wf hs.mem ((Int.toNat_lt ha.1).mpr ha.2) v
    words := Memory.set_words hs.words hv }

/-! ### Words read are `W`-bit words -/

theorem State.Wf.get_inRange (hs : s.Wf) (a : Nat) : InRange s.cfg.wordBits (s.mem.get a) :=
  Memory.get_of_words (P := InRange s.cfg.wordBits) hs.words (inRange_zero _) a

theorem State.Wf.val_inRange (hs : s.Wf) {o : ReadOperand} {v : Word} (ho : InRange s.cfg.wordBits o.raw)
    (hv : s.val o = .ok v) : InRange s.cfg.wordBits v := by
  rcases State.val_ok.mp hv with ⟨_, _, rfl⟩ | ⟨_, rfl⟩
  · exact hs.get_inRange _
  · exact ho

end WfRules

/-- What Add, Mul, LessThan and Equals store is a `W`-bit word. -/
theorem Result.inRange {cfg : Config} (hcfg : cfg.Wf) {x y r : Word} {i : Instr} (h : Result cfg x y i r) :
    InRange cfg.wordBits r := by
  obtain ⟨hW, _⟩ := hcfg
  cases h with
  | add h => exact narrow_inRange (by omega) h
  | mul h => exact narrow_inRange (by omega) h
  | lessThan => exact aluLt_inRange hW x y
  | equals => exact aluEq_inRange hW x y

/-! ### The raw operands of an instruction -/

theorem Instr.readOperandsFirst (i : Instr) : Laws.ReadOperandsFirst.Statement i := by
  cases i with
  | add a b dst => exact Laws.ReadOperandsFirst.add a b dst
  | mul a b dst => exact Laws.ReadOperandsFirst.mul a b dst
  | input dst => exact Laws.ReadOperandsFirst.input dst
  | output a => exact Laws.ReadOperandsFirst.output a
  | jumpIfTrue a target => exact Laws.ReadOperandsFirst.jumpIfTrue a target
  | jumpIfFalse a target => exact Laws.ReadOperandsFirst.jumpIfFalse a target
  | lessThan a b dst => exact Laws.ReadOperandsFirst.lessThan a b dst
  | equals a b dst => exact Laws.ReadOperandsFirst.equals a b dst
  | halt => exact Laws.ReadOperandsFirst.halt

theorem Instr.raw_mem_raws {i : Instr} {o : ReadOperand} (ho : o ∈ i.readOperands) : o.raw ∈ i.raws :=
  (readOperandsFirst i).1.subset (List.mem_map_of_mem ho)

theorem Instr.width_eq_raws_length (i : Instr) : i.width = 1 + i.raws.length := by
  rw [Instr.width, (readOperandsFirst i).2]

/-- Every raw operand of an assembled instruction is one that was supplied (R76). -/
theorem Header.assemble_raws {ε : Type} {operand : Nat → Except ε Word} {h : Header} {i : Instr}
    (hi : h.assemble operand = .ok i) : ∀ r ∈ i.raws, ∃ k, operand k = .ok r := by
  have three : ∀ {r0 r1 r2 : Word}, operand 0 = .ok r0 → operand 1 = .ok r1 → operand 2 = .ok r2 →
      ∀ r ∈ [r0, r1, r2], ∃ k, operand k = .ok r := fun h0 h1 h2 => by simpa using ⟨⟨0, h0⟩, ⟨1, h1⟩, ⟨2, h2⟩⟩
  have two : ∀ {r0 r1 : Word}, operand 0 = .ok r0 → operand 1 = .ok r1 →
      ∀ r ∈ [r0, r1], ∃ k, operand k = .ok r := fun h0 h1 => by simpa using ⟨⟨0, h0⟩, ⟨1, h1⟩⟩
  have one : ∀ {r0 : Word}, operand 0 = .ok r0 → ∀ r ∈ [r0], ∃ k, operand k = .ok r :=
    fun h0 => by simpa using ⟨0, h0⟩
  cases h <;> simp only [Header.assemble, except_bind_ok, pure, Except.pure, Except.ok.injEq] at hi
  case halt => subst hi; simp [Instr.raws]
  case input => obtain ⟨_, h0, rfl⟩ := hi; exact one h0
  case output => obtain ⟨_, h0, rfl⟩ := hi; exact one h0
  case jumpIfTrue => obtain ⟨_, h0, _, h1, rfl⟩ := hi; exact two h0 h1
  case jumpIfFalse => obtain ⟨_, h0, _, h1, rfl⟩ := hi; exact two h0 h1
  case add => obtain ⟨_, h0, _, h1, _, h2, rfl⟩ := hi; exact three h0 h1 h2
  case mul => obtain ⟨_, h0, _, h1, _, h2, rfl⟩ := hi; exact three h0 h1 h2
  case lessThan => obtain ⟨_, h0, _, h1, _, h2, rfl⟩ := hi; exact three h0 h1 h2
  case equals => obtain ⟨_, h0, _, h1, _, h2, rfl⟩ := hi; exact three h0 h1 h2

theorem State.Wf.fetch_raws_inRange {s : State} (hs : s.Wf) {i : Instr} (hi : s.fetch = .ok i) :
    ∀ r ∈ i.raws, InRange s.cfg.wordBits r := by
  obtain ⟨_, h, _, hasm⟩ := State.fetch_ok.mp hi
  intro r hr
  obtain ⟨k, hk⟩ := Header.assemble_raws hasm r hr
  obtain ⟨_, rfl⟩ := State.operandCell_ok.mp hk
  exact hs.get_inRange _

/-! ### The faults of the fetch have payloads as R25 says -/

/-- `e` is the failure of the lowest operand that fails (R94). -/
def FailsFirst {ε : Type} (operand : Nat → Except ε Word) (e : ε) : Prop :=
  ∃ k, operand k = .error e ∧ ∀ j < k, ∃ v, operand j = .ok v

/-- Taking operand `k`, all below it having been there: it fails first, or what follows finds the first failure. -/
theorem failsFirst_of_bind {ε α : Type} {operand : Nat → Except ε Word} {e : ε} {k : Nat} {f : Word → Except ε α}
    (hlt : ∀ j < k, ∃ v, operand j = .ok v)
    (hf : ∀ v, (∀ j < k + 1, ∃ v, operand j = .ok v) → f v = .error e → FailsFirst operand e)
    (h : (operand k >>= f) = .error e) : FailsFirst operand e := by
  rcases except_bind_error.mp h with hk | ⟨v, hk, hv⟩
  · exact ⟨k, hk, hlt⟩
  · refine hf v (fun j hj => ?_) hv
    rcases Nat.lt_succ_iff_lt_or_eq.mp hj with hj | rfl
    · exact hlt j hj
    · exact ⟨v, hk⟩

/-- Assembling an instruction fails with the lowest operand that fails (R76, R94). -/
theorem Header.assemble_error {ε : Type} {operand : Nat → Except ε Word} {h : Header} {e : ε}
    (he : h.assemble operand = .error e) : FailsFirst operand e := by
  have zero : ∀ j < 0, ∃ v, operand j = .ok v := by simp
  have three : ∀ {f : Word → Word → Word → Instr},
      (do let r0 ← operand 0; let r1 ← operand 1; let r2 ← operand 2; return f r0 r1 r2) = .error e →
      FailsFirst operand e :=
    failsFirst_of_bind zero fun _ h0 => failsFirst_of_bind h0 fun _ h1 => failsFirst_of_bind h1 fun _ _ h => nomatch h
  have two : ∀ {f : Word → Word → Instr},
      (do let r0 ← operand 0; let r1 ← operand 1; return f r0 r1) = .error e → FailsFirst operand e :=
    failsFirst_of_bind zero fun _ h0 => failsFirst_of_bind h0 fun _ _ h => nomatch h
  have one : ∀ {f : Word → Instr}, (do let r0 ← operand 0; return f r0) = .error e → FailsFirst operand e :=
    failsFirst_of_bind zero fun _ _ h => nomatch h
  cases h with
  | add m0 m1 => exact three he
  | mul m0 m1 => exact three he
  | input => exact one he
  | output m0 => exact one he
  | jumpIfTrue m0 m1 => exact two he
  | jumpIfFalse m0 m1 => exact two he
  | lessThan m0 m1 => exact three he
  | equals m0 m1 => exact three he
  | halt => contradiction

/-- The first operand cell outside memory is cell `N`: the cells before it, and the instruction word, are inside. -/
theorem State.failsFirst_operandCell {s : State} (hpc : s.pc < s.mem.size) {e : FaultKind}
    (h : FailsFirst s.operandCell e) : e = .outOfBounds (s.mem.size : Int) := by
  obtain ⟨k, hk, hlt⟩ := h
  obtain ⟨hge, rfl⟩ := State.operandCell_error.mp hk
  have hle : s.pc + 1 + k ≤ s.mem.size := by
    cases k with
    | zero => omega
    | succ j =>
      obtain ⟨v, hv⟩ := hlt j (by omega)
      exact State.operandCell_lt hv
  rw [le_antisymm hle hge]

theorem modeOfDigit_error_wf {v : Variant} {m k : Nat} {f : DecodeFailure}
    (h : modeOfDigit v (digit m k) = .error f) (cfg : Config) (N : Nat) : (FaultKind.ofDecode f).Wf cfg N := by
  obtain ⟨_, rfl⟩ := modeOfDigit_error.mp h
  exact Nat.le_of_lt_succ (digit_lt m k)

/-- The opcode pair is in `[-99, 99]` and a digit in `[0, 9]`, whatever word fails to decode (R136, R137). -/
theorem decode_error_wf {cfg : Config} {w : Word} {f : DecodeFailure} (h : decode cfg w = .error f) (N : Nat) :
    (FaultKind.ofDecode f).Wf cfg N := by
  rcases decode_error.mp h with ⟨_, rfl⟩ | ⟨op, _, hh | ⟨_, hu⟩⟩
  · exact opcodePair_bounds w
  · obtain ⟨k, _, hk, _⟩ := Opcode.header_error_iff.mp hh
    exact modeOfDigit_error_wf hk cfg N
  · obtain ⟨_, k, _, hk, _⟩ := checkUnused_error.mp hu
    exact modeOfDigit_error_wf hk cfg N

theorem State.Wf.fetch_error_wf {s : State} (hs : s.Wf) {k : FaultKind} (h : s.fetch = .error k) :
    k.Wf s.cfg s.mem.size := by
  rcases State.fetch_error.mp h with ⟨hge, rfl⟩ | ⟨_, f, hd, rfl⟩ | ⟨hpc, hd, _, hasm⟩
  · exact .inr (by rw [le_antisymm hs.pc hge])
  · exact decode_error_wf hd _
  · rw [State.failsFirst_operandCell hpc (Header.assemble_error hasm)]
    exact .inr rfl

/-! ### What a meaning does -/

section Effects

variable {s t : State} {i : Instr}

theorem Raised.wf {k : FaultKind} (hk : Raised s i k) (hs : s.Wf) (hraws : ∀ r ∈ i.raws, InRange s.cfg.wordBits r) :
    k.Wf s.cfg s.mem.size := by
  cases hk with
  | operand hr _ => exact .inl (hraws _ hr)
  | overflow _ ho => exact ho
  | target ho hv _ => exact .inl (hs.val_inRange (hraws _ (Instr.raw_mem_raws ho)) hv)

/-- Every effect of an instruction of `W`-bit words that lies inside memory keeps a running state well-formed. -/
theorem Effect.wf (he : Effect s i t) (hs : s.Wf) (hh : s.halted = false) (hf : s.fault = none)
    (hraws : ∀ r ∈ i.raws, InRange s.cfg.wordBits r) (hw : s.pc + i.width ≤ s.mem.size) : t.Wf := by
  have taken : ∀ {item : InputItem} {rest : List InputItem}, s.input = item :: rest →
      item.InRange s.cfg.wordBits ∧ (s.setInput rest).Wf := by
    intro item rest hin
    obtain ⟨hitem, hrest⟩ := List.forall_mem_cons.mp (hin ▸ hs.input)
    exact ⟨hitem, hs.setInput hrest⟩
  cases he with
  | raised _ hk => exact hs.setFault hh (hk.wf hs hraws)
  | stored _ hr _ _ hres hb =>
    rw [Instr.width_eq_raws_length, hr] at hw
    exact (hs.store hb (hres.inRange hs.cfg)).advance hw
  | waits _ => exact hs
  | malformed hin => exact (taken hin).2.setFault hh trivial
  | inputOutOfBounds hin _ => exact (taken hin).2.setFault hh (.inl (hraws _ (List.mem_singleton_self _)))
  | inputStored hin hb =>
    obtain ⟨hv, hrest⟩ := taken hin
    exact (hrest.store hb hv).advance hw
  | emitted hx => exact (hs.outPut (hs.val_inRange (hraws _ (List.mem_singleton_self _)) hx)).advance hw
  | jumped _ _ _ _ hb => exact hs.setPc (Int.toNat_le.mpr hb.2.le)
  | fellThrough _ hi _ _ =>
    rcases hi with ⟨rfl, _⟩ | ⟨rfl, _⟩
    · exact hs.advance hw
    · exact hs.advance hw
  | stopped => exact hs.setHalted hf true

theorem Effect.cfg_eq (he : Effect s i t) : t.cfg = s.cfg := by
  cases he <;> rfl

end Effects

/-! ### The parameters -/

theorem step_cfg {s t : State} (h : step s = .next t) : t.cfg = s.cfg := by
  obtain ⟨_, _, ⟨k, _, rfl⟩ | ⟨i, _, hi⟩⟩ := step_next.mp h
  · rfl
  · exact (exec_effect hi).cfg_eq

/-- The step the host requests is the machine's or changes nothing (R42). -/
theorem State.hostStep_cases (s : State) : step s = .next s.hostStep ∨ s.hostStep = s := by
  cases h : step s with
  | next t => exact .inl (by rw [State.hostStep_of_next h])
  | fault r => exact .inr (by rw [State.hostStep, h])
  | refused r => exact .inr (by rw [State.hostStep, h])

theorem State.load_cfg {s t : State} {prog : List Int} (h : s.load prog = some t) : t.cfg = s.cfg := by
  obtain ⟨_, rfl⟩ := State.load_some.mp h
  rfl

theorem State.hostWrite_cfg {s t : State} {a v : Int} (h : s.hostWrite a v = some t) : t.cfg = s.cfg := by
  obtain ⟨_, rfl⟩ := State.hostWrite_some.mp h
  rfl

theorem State.hostStep_cfg (s : State) : s.hostStep.cfg = s.cfg := by
  rcases s.hostStep_cases with h | h
  · exact step_cfg h
  · rw [h]

/-- A property of `s` and of every state an accepted request answers holds of what the host goes on with. -/
theorem getD_of_some {P : State → Prop} {s : State} {o : Option State} (hs : P s) (ho : ∀ t, o = some t → P t) :
    P (o.getD s) := by
  cases o with
  | none => exact hs
  | some t => exact ho t rfl

theorem State.serve_cfg (s : State) (r : HostRequest) : (s.serve r).cfg = s.cfg := by
  cases r with
  | load prog => exact getD_of_some (P := fun t => t.cfg = s.cfg) rfl fun _ => State.load_cfg
  | hostWrite a v => exact getD_of_some (P := fun t => t.cfg = s.cfg) rfl fun _ => State.hostWrite_cfg
  | supply line => rfl
  | step => exact s.hostStep_cfg

end Sys2Proof.Machine

namespace Sys2Proof.Claims

open Sys2Proof.Machine

/-- Settles O37. A running well-formed state either takes the fault of its fetch, with a payload as R25 says, or an effect
of the fetched instruction, whose raw operands are `W`-bit words and whose cells lie inside memory. -/
theorem stepKeepsStatesWellFormed : Obligations.StepKeepsStatesWellFormed := by
  intro s t hs hstep
  obtain ⟨hh, hf, ⟨k, hk, rfl⟩ | ⟨i, hi, hexec⟩⟩ := step_next.mp hstep
  · exact hs.setFault hh (hs.fetch_error_wf hk)
  · exact (exec_effect hexec).wf hs hh hf (hs.fetch_raws_inRange hi) (State.fetch_width hi)

/-- Settles O33, from what each step and each request does to the field `cfg`. -/
theorem parametersNeverChange : Obligations.ParametersNeverChange :=
  ⟨fun _ _ => step_cfg, State.serve_cfg⟩

end Sys2Proof.Claims

/-! SUPPORT. The host's requests and the machine's stops: which states have no step, what each request refuses and keeps,
and what repeated steps reach. The obligations of spec/10_state.md follow. -/

namespace Sys2Proof.Machine

/-! ### Which states have a step -/

section Steps

variable {s : State}

theorem step_of_halted (hh : s.halted = true) : step s = .fault .halted := by
  simp [step, hh]

theorem step_of_fault {k : FaultKind} (hh : s.halted = false) (hf : s.fault = some k) :
    step s = .fault (.faulted k) := by
  simp [step, hh, hf]

theorem step_of_fetch {i : Instr} (hh : s.halted = false) (hf : s.fault = none) (hi : s.fetch = .ok i) :
    step s = exec i s := by
  simp [step, hh, hf, hi]

/-- A running machine has a step: the fault of its fetch, or what the fetched instruction does (R90). -/
theorem exists_step_of_running (hh : s.halted = false) (hf : s.fault = none) : ∃ t, step s = .next t := by
  cases hi : s.fetch with
  | error k => exact ⟨_, step_next.mpr ⟨hh, hf, .inl ⟨k, hi, rfl⟩⟩⟩
  | ok i => rw [step_of_fetch hh hf hi]; exact exec_next i s

theorem step_ne_refused (s : State) (r : Refusal) : step s ≠ .refused r := by
  cases hh : s.halted with
  | true => simp [step_of_halted hh]
  | false =>
    cases hf : s.fault with
    | some k => simp [step_of_fault hh hf]
    | none =>
      obtain ⟨t, ht⟩ := exists_step_of_running hh hf
      simp [ht]

theorem State.not_stopped_of_step {t : State} (h : step s = .next t) : ¬ s.Stopped := by
  obtain ⟨hh, hf, _⟩ := step_next.mp h
  simp [State.Stopped, hh, hf]

/-- R42: on a stopped machine the host's step changes nothing. -/
theorem State.hostStep_of_stopped (h : s.Stopped) : s.hostStep = s :=
  s.hostStep_cases.resolve_left fun hstep => State.not_stopped_of_step hstep h

end Steps

/-! ### What an effect does to `halted` and to the input -/

section Effects

variable {s t : State}

/-- Halt sets `halted`, and every other effect leaves it (R24). -/
theorem Effect.halted_cases {i : Instr} (he : Effect s i t) :
    t.halted = s.halted ∨ (i = .halt ∧ t = s.setHalted true) := by
  cases he with
  | stopped => exact .inr ⟨rfl, rfl⟩
  | _ => exact .inl rfl

/-- In takes the head item wherever there is one, also where it raises a fault (R115, R140). -/
theorem Effect.input_taken {dst : Word} (he : Effect s (.input dst) t) {item : InputItem} {rest : List InputItem}
    (hin : s.input = item :: rest) : t.input = rest := by
  have tail : ∀ {head : InputItem} {items : List InputItem}, s.input = head :: items → items = rest :=
    fun h => (List.cons.inj (h.symm.trans hin)).2
  cases he with
  | raised hi _ => exact absurd rfl hi
  | stored hro => cases hro
  | waits h => rw [h] at hin; cases hin
  | malformed h => exact tail h
  | inputOutOfBounds h _ => exact tail h
  | inputStored h _ => exact tail h
  | jumped hro => cases hro
  | fellThrough hro => cases hro

theorem exec_input_waits (dst : Word) (h : s.input = []) : exec (.input dst) s = .next s := by
  simp [exec, execInput, h]

end Effects

/-! ### The requests: what is refused, and what the others answer -/

section Requests

variable {s t : State}

theorem State.load_none {prog : List Int} :
    s.load prog = none ↔ s.cfg.nMax < prog.length ∨ ∃ v ∈ prog, ¬ InRange s.cfg.wordBits v := by
  simp only [State.load, ite_eq_right_iff, reduceCtorEq, imp_false, not_and_or, Nat.not_le, not_forall, exists_prop]

theorem State.hostRead_none {a : Int} : s.hostRead a = none ↔ ¬ s.InBounds a := by
  simp [State.hostRead]

theorem State.hostWrite_none {a v : Int} :
    s.hostWrite a v = none ↔ ¬ (s.InBounds a ∧ InRange s.cfg.wordBits v) := by
  simp [State.hostWrite]

theorem State.serve_load_of_none {prog : List Int} (h : s.load prog = none) : s.serve (.load prog) = s := by
  simp [State.serve, h]

theorem State.serve_hostWrite_of_none {a v : Int} (h : s.hostWrite a v = none) : s.serve (.hostWrite a v) = s := by
  simp [State.serve, h]

theorem State.serve_hostWrite_of_some {a v : Int} (h : s.hostWrite a v = some t) : s.serve (.hostWrite a v) = t := by
  simp [State.serve, h]

theorem State.load_halted {prog : List Int} (h : s.load prog = some t) : t.halted = false := by
  obtain ⟨_, rfl⟩ := State.load_some.mp h
  rfl

theorem State.hostWrite_halted {a v : Int} (h : s.hostWrite a v = some t) : t.halted = s.halted := by
  obtain ⟨_, rfl⟩ := State.hostWrite_some.mp h
  rfl

theorem State.serve_hostWrite_halted (s : State) (a v : Int) : (s.serve (.hostWrite a v)).halted = s.halted :=
  getD_of_some (P := fun t => t.halted = s.halted) rfl fun _ => State.hostWrite_halted

/-- Setting the cell at an address writes exactly that cell (R14, R41). -/
theorem State.stores_setMem {a v : Int} (ha : 0 ≤ a) : Claims.Stores s (s.setMem (s.mem.set a.toNat v)) a v := by
  refine ⟨rfl, fun x => ?_⟩
  have hx : x = a.toNat ↔ (x : Int) = a := by omega
  rw [State.setMem_mem, Memory.get_set]
  simp only [hx]

/-- A host step that makes `halted` true ran Halt and did nothing else (R24, R130). -/
theorem State.hostStep_halts (hs : s.halted = false) (ht : s.hostStep.halted = true) :
    s.fetch = .ok .halt ∧ s.hostStep = s.setHalted true := by
  have hne : s.hostStep.halted ≠ s.halted := by simp [hs, ht]
  have hstep : step s = .next s.hostStep :=
    s.hostStep_cases.resolve_right fun h => hne (congrArg State.halted h)
  obtain ⟨_, _, ⟨k, _, heq⟩ | ⟨i, hi, hexec⟩⟩ := step_next.mp hstep
  · exact absurd (congrArg State.halted heq) hne
  · obtain ⟨rfl, heq⟩ := (exec_effect hexec).halted_cases.resolve_left hne
    exact ⟨hi, heq⟩

end Requests

/-! ### The items a host supplies -/

theorem InputItem.ofLine_of_inRange {W : Nat} {n : Int} (h : Sys2Proof.InRange W n) :
    InputItem.ofLine W (some n) = .value n := if_pos h

theorem InputItem.ofLine_of_not_inRange {W : Nat} {n : Int} (h : ¬ Sys2Proof.InRange W n) :
    InputItem.ofLine W (some n) = .malformed := if_neg h

/-- A fetch does not look at the channels (R109). -/
theorem State.fetch_supply (s : State) (line : Option Int) : (s.supply line).fetch = s.fetch := rfl

/-! ### Every request keeps a state well-formed -/

section WfRequests

variable {s t : State}

theorem State.Wf.load (hs : s.Wf) {prog : List Int} (h : s.load prog = some t) : t.Wf := by
  obtain ⟨⟨hlen, hwords⟩, rfl⟩ := State.load_some.mp h
  exact { hs with
    size := hlen
    mem := Memory.ofWords_wf prog
    words := Memory.ofWords_words hwords
    pc := Nat.zero_le _
    precise := fun _ hk => nomatch hk }

theorem State.Wf.hostWrite (hs : s.Wf) {a v : Int} (h : s.hostWrite a v = some t) : t.Wf := by
  obtain ⟨⟨ha, hv⟩, rfl⟩ := State.hostWrite_some.mp h
  exact hs.store ha hv

theorem State.Wf.supply (hs : s.Wf) (line : Option Int) : (s.supply line).Wf :=
  hs.setInput <| List.forall_mem_append.mpr
    ⟨hs.input, List.forall_mem_singleton.mpr (InputItem.ofLine_inRange _ line)⟩

theorem State.Wf.hostStep (hs : s.Wf) : s.hostStep.Wf := by
  rcases s.hostStep_cases with h | h
  · exact Claims.stepKeepsStatesWellFormed s _ hs h
  · rwa [h]

theorem State.Wf.serve (hs : s.Wf) (r : HostRequest) : (s.serve r).Wf := by
  cases r with
  | load prog => exact getD_of_some hs fun _ => hs.load
  | hostWrite a v => exact getD_of_some hs fun _ => hs.hostWrite
  | supply line => exact hs.supply line
  | step => exact hs.hostStep

end WfRequests

/-! ### Runs -/

/-- From a stopped machine on, repeated steps stay where they are (R42). -/
theorem State.iterate_hostStep_of_stopped {s : State} {k n : Nat} (hkn : k ≤ n)
    (h : (State.hostStep^[k] s).Stopped) : State.hostStep^[n] s = State.hostStep^[k] s := by
  obtain ⟨d, rfl⟩ := Nat.exists_eq_add_of_le' hkn
  rw [Function.iterate_add_apply]
  exact Function.iterate_fixed (State.hostStep_of_stopped h) d

/-- R43: a run ends with what the state after as many steps as it has fuel concludes: the steps it leaves out, those after
the stop, change nothing. -/
theorem State.runFor_eq (s : State) (n : Nat) : s.runFor n = (State.hostStep^[n] s).conclusion := by
  induction n generalizing s with
  | zero => rfl
  | succ n ih =>
    rw [State.runFor]
    split
    case isTrue h => rw [State.iterate_hostStep_of_stopped (Nat.zero_le _) h]; rfl
    case isFalse => rw [ih, Function.iterate_succ_apply]

section Conclusions

variable {s : State}

theorem State.conclusion_ok {m : Memory} : s.conclusion = .ok m ↔ s.halted = true ∧ s.mem = m := by
  cases hh : s.halted with
  | true => simp [State.conclusion, hh]
  | false => cases hf : s.fault <;> simp [State.conclusion, hh, hf]

theorem State.conclusion_err {k : FaultKind} : s.conclusion = .err k ↔ s.halted = false ∧ s.fault = some k := by
  cases hh : s.halted with
  | true => simp [State.conclusion, hh]
  | false => cases hf : s.fault <;> simp [State.conclusion, hh, hf]

theorem State.conclusion_noConclusion : s.conclusion = .noConclusion ↔ ¬ s.Stopped := by
  cases hh : s.halted with
  | true => simp [State.conclusion, State.Stopped, hh]
  | false => cases hf : s.fault <;> simp [State.conclusion, State.Stopped, hh, hf]

end Conclusions

/-- What holds only of stopped machines holds after `n` steps exactly where it holds after some number of them. -/
theorem State.iterate_hostStep_iff {P : State → Prop} (hP : ∀ t, P t → t.Stopped) (s : State) (n : Nat) :
    P (State.hostStep^[n] s) ↔ ∃ k ≤ n, P (State.hostStep^[k] s) := by
  constructor
  · exact fun h => ⟨n, le_rfl, h⟩
  · rintro ⟨k, hk, h⟩
    rwa [State.iterate_hostStep_of_stopped hk (hP _ h)]

end Sys2Proof.Machine

namespace Sys2Proof.Claims

open Sys2Proof.Machine

/-- Settles O23. While the channel is empty In is a step to the same state, so every number of steps is; a supplied line
does not change what is fetched, and In then takes the only item. -/
theorem inWaitsUntilAnItemIsSupplied : Obligations.InWaitsUntilAnItemIsSupplied := by
  intro s dst ⟨hh, hf⟩ hi hin
  have hwait : step s = .next s := by rw [step_of_fetch hh hf hi, exec_input_waits dst hin]
  refine ⟨Function.iterate_fixed (State.hostStep_of_next hwait), hwait, fun line => ?_⟩
  obtain ⟨t, ht⟩ := exec_next (.input dst) (s.supply line)
  have hsupply : (s.supply line).input = [InputItem.ofLine s.cfg.wordBits line] := by simp [State.supply, hin]
  have htaken : t.input = [] := (exec_effect ht).input_taken hsupply
  refine ⟨t, ?_, htaken, ?_⟩
  · rw [step_of_fetch (s := s.supply line) hh hf (s.fetch_supply line ▸ hi), ht]
  · rintro rfl
    simp [hsupply] at htaken

/-- Settles O31. Of all requests only a step and a load touch `halted`, and of all effects only Halt's. -/
theorem onlyHaltHalts : Obligations.OnlyHaltHalts := by
  refine ⟨fun _ _ _ => State.load_halted, fun s r hs ht => ?_, fun s r hs hload => ?_⟩
  · cases r with
    | load prog =>
      have hstays : (s.serve (.load prog)).halted = false :=
        getD_of_some (P := fun t => t.halted = false) hs fun _ => State.load_halted
      simp [hstays] at ht
    | hostWrite a v => simp [State.serve_hostWrite_halted, hs] at ht
    | supply line => exact absurd (hs.symm.trans ht) Bool.false_ne_true
    | step => exact ⟨rfl, State.hostStep_halts hs ht⟩
  · cases r with
    | load prog => exact absurd rfl (hload prog)
    | hostWrite a v => rw [State.serve_hostWrite_halted, hs]
    | supply line => exact hs
    | step => rwa [State.serve, State.hostStep_of_stopped (.inl hs)]

/-- Settles O38, request by request. -/
theorem hostRequestsKeepStatesWellFormed : Obligations.HostRequestsKeepStatesWellFormed :=
  fun _ r hs => hs.serve r

/-- Settles O41, from when `load` refuses and what it answers elsewhere. -/
theorem loadSetsEveryPieceOfState : Obligations.LoadSetsEveryPieceOfState := by
  refine fun s prog => ⟨fun hbad => ?_, fun hlen hwords => ?_⟩
  · have hnone := State.load_none.mpr hbad
    exact ⟨hnone, State.serve_load_of_none hnone⟩
  · exact ⟨_, State.load_some.mpr ⟨⟨hlen, hwords⟩, rfl⟩, rfl, Memory.get_ofWords prog, rfl, rfl, rfl, rfl, rfl, rfl⟩

/-- Settles O43, from when each request is refused and what it answers elsewhere, and the laws of reads and writes. -/
theorem hostReadsAndWrites : Obligations.HostReadsAndWrites := by
  intro s a v
  have refused : ¬ (s.InBounds a ∧ InRange s.cfg.wordBits v) →
      s.hostWrite a v = none ∧ s.serve (.hostWrite a v) = s := fun h =>
    have hnone := State.hostWrite_none.mpr h
    ⟨hnone, State.serve_hostWrite_of_none hnone⟩
  refine ⟨fun ha => ⟨State.hostRead_none.mpr ha, refused (mt And.left ha)⟩, fun hv => refused (mt And.right hv),
    fun ha => State.hostRead_some.mpr ⟨ha, rfl⟩, fun ha hv => ?_⟩
  have hwrite : s.hostWrite a v = some (s.setMem (s.mem.set a.toNat v)) := State.hostWrite_some.mpr ⟨⟨ha, hv⟩, rfl⟩
  refine ⟨_, hwrite, State.serve_hostWrite_of_some hwrite, State.hostRead_some.mpr ⟨ha, ?_⟩,
    State.stores_setMem ha.1, rfl, ⟨rfl, rfl, rfl⟩, rfl, rfl⟩
  simp [Memory.get_set]

/-- Settles O45. A run concludes from the state after `n` steps; a conclusion is reached only where the machine is stopped,
and from there on steps change nothing. -/
theorem runRepeatsTheStep : Obligations.RunRepeatsTheStep := by
  intro s n
  refine ⟨fun m => ?_, fun f => ?_, fun hn m hm => ?_⟩
  · rw [State.runFor_eq, State.conclusion_ok]
    exact State.iterate_hostStep_iff (P := fun t => t.halted = true ∧ t.mem = m) (fun _ h => .inl h.1) s n
  · rw [State.runFor_eq, State.conclusion_err]
    exact State.iterate_hostStep_iff (P := fun t => t.halted = false ∧ t.fault = some f)
      (fun _ h => .inr (by simp [h.2])) s n
  · rw [State.runFor_eq] at hn
    have hstopped := not_not.mp (mt State.conclusion_noConclusion.mpr hn)
    rw [State.runFor_eq, State.runFor_eq, State.iterate_hostStep_of_stopped hm hstopped]

/-- Settles O9, one rule of `step` for each clause. -/
theorem noStepExactlyWhereStopped : Obligations.NoStepExactlyWhereStopped := fun s =>
  ⟨step_of_halted, fun _ => step_of_fault, fun ⟨hh, hf⟩ => exists_step_of_running hh hf, step_ne_refused s⟩

/-- Settles O44, one rule of the host's step for each clause. -/
theorem hostStepOnAStoppedMachine : Obligations.HostStepOnAStoppedMachine := fun _ =>
  ⟨State.hostStep_of_stopped, fun _ => State.hostStep_of_next⟩

/-- Settles O46, from the item a line arrives as. -/
theorem inputItemsArriveInOrder : Obligations.InputItemsArriveInOrder := by
  refine fun s => ⟨fun n hn => ?_, fun n hn => ?_, rfl⟩
  · rw [State.supply, InputItem.ofLine_of_inRange hn, State.setInput]
  · rw [State.supply, InputItem.ofLine_of_not_inRange hn, State.setInput]

end Sys2Proof.Claims

/-! SUPPORT. Stores: the size of memory, which nothing but a load changes; what a resolved operand and the ALU's result are
in the model's operations; what a step that stores leaves for the next fetch. The obligations of spec/20_memory.md
follow. -/

namespace Sys2Proof.Machine

/-! ### The size of memory -/

section Size

variable {s t : State}

theorem Effect.size_eq {i : Instr} (he : Effect s i t) : t.mem.size = s.mem.size := by
  cases he <;> rfl

theorem step_size (h : step s = .next t) : t.mem.size = s.mem.size := by
  obtain ⟨_, _, ⟨k, _, rfl⟩ | ⟨i, _, hi⟩⟩ := step_next.mp h
  · rfl
  · exact (exec_effect hi).size_eq

theorem State.hostStep_size (s : State) : s.hostStep.mem.size = s.mem.size := by
  rcases s.hostStep_cases with h | h
  · exact step_size h
  · rw [h]

theorem State.hostWrite_size {a v : Int} (h : s.hostWrite a v = some t) : t.mem.size = s.mem.size := by
  obtain ⟨_, rfl⟩ := State.hostWrite_some.mp h
  rfl

/-- No request but a load changes `N` (R53). -/
theorem State.serve_size (s : State) (r : HostRequest) (hload : ∀ prog, r ≠ .load prog) :
    (s.serve r).mem.size = s.mem.size := by
  cases r with
  | load prog => exact absurd rfl (hload prog)
  | hostWrite a v => exact getD_of_some (P := fun t => t.mem.size = s.mem.size) rfl fun _ => State.hostWrite_size
  | supply line => rfl
  | step => exact s.hostStep_size

/-- No address at or above `N` is in `[0, N)` (R52). -/
theorem State.not_inBounds_of_size_le {a : Int} (h : (s.mem.size : Int) ≤ a) : ¬ s.InBounds a :=
  fun hb => absurd hb.2 (Int.not_lt.mpr h)

end Size

/-! ### Operands and the ALU, in the words of the claims -/

theorem State.val_ok_iff_resolves {s : State} {o : ReadOperand} {v : Word} :
    s.val o = .ok v ↔ Claims.Resolves s o v := by
  unfold Claims.Resolves
  rw [State.val_ok]
  cases hm : o.mode with
  | immediate => simp
  | position =>
    constructor
    · rintro (⟨_, ⟨hpos, hlt⟩, rfl⟩ | ⟨h, _⟩)
      · exact ⟨o.raw.toNat, (Int.toNat_of_nonneg hpos).symm, (Int.toNat_lt hpos).mpr hlt, rfl⟩
      · contradiction
    · rintro ⟨a, hraw, hlt, rfl⟩
      rw [hraw, Int.toNat_natCast]
      exact .inl ⟨rfl, ⟨by omega, by omega⟩, rfl⟩

/-- Only one `W`-bit word is congruent to an integer modulo `2^W`, the one that wrapping gives (R13). -/
theorem wrapWord_eq_of_inRange {W : Nat} (hW : 1 ≤ W) {e r : Int} (hr : InRange W r)
    (hdvd : ((2 ^ W : Nat) : Int) ∣ r - e) : wrapWord W e = r := by
  have hpow : 2 ^ W = 2 * 2 ^ (W - 1) := by rw [← pow_succ', Nat.sub_add_cancel hW]
  obtain ⟨hlo, hhi⟩ := hr
  unfold signBound at hlo hhi
  exact (Int.bmod_eq_iff (Nat.two_pow_pos W)).mpr ⟨by omega, by omega, hdvd⟩

/-- The ALU's result, said as R103 says it, is what narrowing answers. -/
theorem narrow_of_aluResult {cfg : Config} {e r : Int} (h : Claims.AluResult cfg e r) : narrow cfg e = .ok r := by
  rcases h with ⟨he, rfl⟩ | ⟨he, hwrap, hW, hr, hdvd⟩
  · exact narrow_ok.mpr (.inl ⟨he, rfl⟩)
  · exact narrow_ok.mpr (.inr ⟨he, hwrap, (wrapWord_eq_of_inRange hW hr hdvd).symm⟩)

/-! ### An instruction that stores -/

section Stores

variable {s : State} {a b : ReadOperand} {dst x y r : Int}

/-- The end of an instruction of the shape `dst <- g(a, b)` whose sources and result are there (R97, R98). -/
theorem storesAndAdvances_of_exec {i : Instr} {g : Word → Word → Except FaultKind Word}
    (hexec : exec i s = s.commit (do
      let x ← s.val a; let y ← s.val b; let r ← g x y; let u ← s.memWrite dst r; return u.advance 4))
    (hx : Claims.Resolves s a x) (hy : Claims.Resolves s b y) (hr : g x y = .ok r) :
    Claims.StoresAndAdvances i s dst r 4 := by
  have hend : exec i s = s.commit (do let u ← s.memWrite dst r; return u.advance 4) := by
    rw [hexec, State.val_ok_iff_resolves.mpr hx, State.val_ok_iff_resolves.mpr hy]
    change s.commit (g x y >>= _) = _
    rw [hr]
    rfl
  refine ⟨fun hout => ?_, fun hin => ⟨(s.setMem (s.mem.set dst.toNat r)).advance 4, ?_, State.stores_setMem hin.1, rfl,
    ⟨rfl, rfl, rfl⟩, rfl, rfl⟩⟩
  · rw [hend, State.memWrite_error.mpr ⟨hout, rfl⟩]
    rfl
  · rw [hend, State.memWrite_ok.mpr ⟨hin, rfl⟩]
    rfl

/-- Add with its sources resolved stores the ALU's result (R110). -/
theorem storesAndAdvances_add (hx : Claims.Resolves s a x) (hy : Claims.Resolves s b y)
    (hr : Claims.AluResult s.cfg (x + y) r) : Claims.StoresAndAdvances (.add a b dst) s dst r 4 :=
  storesAndAdvances_of_exec (g := aluAdd s.cfg) rfl hx hy (narrow_of_aluResult hr)

end Stores

/-! ### The step, from the words of memory -/

section NextFetch

variable {s : State} (hh : s.halted = false) (hf : s.fault = none)

include hh hf

/-- A word at `pc` that does not decode is raised (R93). -/
theorem step_raises_of_decode_error (hpc : s.pc < s.mem.size) {f : DecodeFailure}
    (hd : decode s.cfg (s.mem.get s.pc) = .error f) : Claims.Raises (step s) s (FaultKind.ofDecode f) :=
  step_next.mpr ⟨hh, hf, .inl ⟨_, State.fetch_error.mpr (.inr (.inl ⟨hpc, f, hd, rfl⟩)), rfl⟩⟩

theorem step_of_decode_halt (hpc : s.pc < s.mem.size)
    (hd : decode s.cfg (s.mem.get s.pc) = .ok .halt) : step s = .next (s.setHalted true) :=
  step_of_fetch hh hf (State.fetch_ok.mpr ⟨hpc, .halt, hd, rfl⟩)

/-- Out Immediate outputs its operand cell (R95, R116). -/
theorem step_of_decode_output_immediate (hpc : s.pc + 1 < s.mem.size)
    (hd : decode s.cfg (s.mem.get s.pc) = .ok (.output .immediate)) :
    step s = .next ((s.outPut (s.mem.get (s.pc + 1))).advance 2) := by
  have hcell : s.operandCell 0 = .ok (s.mem.get (s.pc + 1)) := State.operandCell_ok.mpr ⟨hpc, rfl⟩
  have hi : s.fetch = .ok (.output ⟨.immediate, s.mem.get (s.pc + 1)⟩) :=
    State.fetch_ok.mpr ⟨by omega, .output .immediate, hd, by rw [Header.assemble, hcell]; rfl⟩
  rw [step_of_fetch hh hf hi]
  rfl

end NextFetch

end Sys2Proof.Machine

namespace Sys2Proof.Claims

open Sys2Proof.Machine

/-- Settles O32, from what each step and each request does to `N`, and from when a write is refused. -/
theorem memoryNeverGrows : Obligations.MemoryNeverGrows := by
  refine ⟨fun _ _ => step_size, State.serve_size, fun s a v ha => ?_⟩
  have hout : ¬ s.InBounds a := State.not_inBounds_of_size_le ha
  exact ⟨State.memWrite_error.mpr ⟨hout, rfl⟩, State.hostWrite_none.mpr (mt And.left hout)⟩

/-- Settles O35. The Add leaves a running state whose memory differs in the cell `dst` only and whose `pc` is the next
instruction's, and the next step fetches from that memory. -/
theorem storesAreSeenByTheNextFetch : Obligations.StoresAreSeenByTheNextFetch := by
  intro s t a b dst x y r ⟨hh, hf⟩ hi hx hy hr hdst hstep
  obtain ⟨u, hexec, ⟨hsize, hget⟩, hpc, ⟨hhalted, hfault, hcfg⟩, _, hout⟩ :=
    (storesAndAdvances_add hx hy hr).2 hdst
  rw [step_of_fetch hh hf hi, hexec] at hstep
  obtain rfl : t = u := (Host.Outcome.next.inj hstep).symm
  rw [← hhalted] at hh
  rw [← hfault] at hf
  have hlt : dst < (s.mem.size : Int) := hdst.2
  rw [← hcfg]
  refine ⟨fun hnext => ?_, fun hnext hword => ?_⟩
  · have hin : t.pc < t.mem.size := by omega
    have hword : t.mem.get t.pc = r := by rw [hget, if_pos (by omega)]
    rw [← hword]
    exact ⟨fun _ => step_raises_of_decode_error hh hf hin, step_of_decode_halt hh hf hin⟩
  · have hin : t.pc + 1 < t.mem.size := by omega
    have hopcode : t.mem.get t.pc = s.mem.get (s.pc + 4) := by rw [hget, if_neg (by omega), hpc]
    have hoperand : t.mem.get (t.pc + 1) = r := by rw [hget, if_pos (by omega)]
    rw [← hopcode] at hword
    exact ⟨_, step_of_decode_output_immediate hh hf hin hword, by simp [hoperand, hout]⟩

/-- Settles O36. The Add's own cells lie in memory, so its store is one like any other: the step runs the instruction as it
was fetched. -/
theorem ownCellsAreReadBeforeTheWrite : Obligations.OwnCellsAreReadBeforeTheWrite := by
  rintro s a b dst x y r k ⟨hh, hf⟩ hi hx hy hr hk rfl
  have hwidth : s.pc + 4 ≤ s.mem.size := State.fetch_width hi
  have hin : Address s ((s.pc + k : Nat) : Int) := ⟨by omega, by omega⟩
  obtain ⟨t, hexec, ⟨_, hget⟩, hpc, _⟩ := (storesAndAdvances_add hx hy hr).2 hin
  refine ⟨t, (step_of_fetch hh hf hi).trans hexec, hpc, ?_, fun n hn => ?_⟩
  · rw [hget, if_pos rfl]
  · rw [hget, if_neg (by omega)]

end Sys2Proof.Claims

/-! SUPPORT. The decoder on whole words: which operation a word selects, its mode digits in the words of the claims, what
its unused digits and its dst digit change, and the way back from an encoding. The obligations of spec/30_encoding.md
follow. -/

namespace Sys2Proof

/-! ### The operation a word selects -/

section Select

variable {v : Variant} {w : Int} {op : Opcode}

/-- No operation has a number below 1 (R66), so such an opcode pair selects none. -/
theorem Opcode.ofPair_of_nonpos {opc : Int} (h : opc ≤ 0) : Opcode.ofPair v opc = none :=
  Opcode.ofPair_eq_none.mpr fun op _ => by have hpos := op.number_pos; omega

/-- A word whose opcode pair is an operation's number is not negative (R65). -/
theorem nonneg_of_opcodePair (h : (op.number : Int) = opcodePair w) : 0 ≤ w := by
  by_contra hneg
  have hpos := op.number_pos
  have hneg := opcodePair_of_neg (w := w) (by omega)
  omega

end Select

/-! ### Mode digits, in the words of the claims -/

section ModeDigits

variable {w : Int}

theorem digit_modeSequence (hw : 0 ≤ w) (k : Nat) : digit (modeSequence w) k = Claims.modeDigitAt w k := by
  have hpow : 100 * 10 ^ k = 10 ^ (k + 2) := by ring
  rw [modeSequence_of_nonneg hw, digit, Claims.modeDigitAt, Nat.div_div_eq_div_mul, hpow]

theorem accepted_iff {v : Variant} {d : Nat} : Claims.Accepted v d ↔ ∃ m, modeOfDigit v d = .ok m := by
  constructor
  · rintro (rfl | ⟨rfl, hv⟩)
    · exact ⟨.position, modeOfDigit_ok.mpr (.inl ⟨rfl, rfl⟩)⟩
    · exact ⟨.immediate, modeOfDigit_ok.mpr (.inr ⟨rfl, hv, rfl⟩)⟩
  · rintro ⟨m, hm⟩
    rcases modeOfDigit_ok.mp hm with ⟨hd, _⟩ | ⟨hd, hv, _⟩
    exacts [.inl hd, .inr ⟨hd, hv⟩]

/-- Adding `d * 10^p` to a number whose digit `p` is 0 sets that digit to `d` and leaves the others. -/
theorem digit_add_mul_pow {m p d : Nat} (hp : digit m p = 0) (hd : d ≤ 9) (k : Nat) :
    digit (m + d * 10 ^ p) k = if k = p then d else digit m k := by
  induction p generalizing m k with
  | zero =>
    rw [digit_zero] at hp
    cases k with
    | zero => rw [if_pos rfl, digit_zero]; omega
    | succ k => rw [if_neg (by omega), digit_succ, digit_succ, show (m + d * 10 ^ 0) / 10 = m / 10 by omega]
  | succ p ih =>
    rw [digit_succ] at hp
    have hpow : d * 10 ^ (p + 1) = 10 * (d * 10 ^ p) := by ring
    cases k with
    | zero => rw [if_neg (by omega), digit_zero, digit_zero]; omega
    | succ k =>
      rw [digit_succ, show (m + d * 10 ^ (p + 1)) / 10 = m / 10 + d * 10 ^ p by omega, ih hp, digit_succ]
      simp

/-- The digits below position `n` are those of the remainder by `10^n`. -/
theorem digit_mod_pow {m n k : Nat} (hk : k < n) : digit (m % 10 ^ n) k = digit m k := by
  induction k generalizing m n with
  | zero =>
    rw [digit_zero, digit_zero, Nat.mod_mod_of_dvd _ (dvd_pow_self 10 (by omega))]
  | succ k ih =>
    obtain ⟨n, rfl⟩ : ∃ j, n = j + 1 := ⟨n - 1, by omega⟩
    rw [digit_succ, digit_succ, pow_succ', Nat.mod_mul_right_div_self, ih (by omega)]

/-- Adding a multiple of `10^(p + 2)` leaves the opcode pair, and adds to the mode digits (R64). -/
theorem opcodePair_add_mul_pow (hw : 0 ≤ w) (d p : Nat) : opcodePair (w + d * 10 ^ (p + 2)) = opcodePair w := by
  have hpow : (d : Int) * 10 ^ (p + 2) = 100 * (d * 10 ^ p) := by ring
  rw [opcodePair_of_nonneg hw, opcodePair_of_nonneg (by positivity), hpow, Int.add_mul_emod_self_left]

theorem modeSequence_add_mul_pow (hw : 0 ≤ w) (d p : Nat) :
    modeSequence (w + d * 10 ^ (p + 2)) = modeSequence w + d * 10 ^ p := by
  obtain ⟨n, rfl⟩ := Int.eq_ofNat_of_zero_le hw
  have hcast : (n : Int) + d * 10 ^ (p + 2) = ((n + 100 * (d * 10 ^ p) : Nat) : Int) := by push_cast; ring
  rw [hcast, modeSequence_of_nonneg (Int.natCast_nonneg _), modeSequence_of_nonneg (Int.natCast_nonneg _),
    Int.toNat_natCast, Int.toNat_natCast]
  omega

/-- Adding `d * 10^(p + 2)` to a word whose mode digit `p` is 0 sets that mode digit (R64). -/
theorem modeDigitAt_add_mul_pow (hw : 0 ≤ w) {p d : Nat} (hp : Claims.modeDigitAt w p = 0) (hd : d ≤ 9) (k : Nat) :
    Claims.modeDigitAt (w + d * 10 ^ (p + 2)) k = if k = p then d else Claims.modeDigitAt w k := by
  rw [← digit_modeSequence hw] at hp
  rw [← digit_modeSequence (by positivity), ← digit_modeSequence hw, modeSequence_add_mul_pow hw,
    digit_add_mul_pow hp hd]

/-- The remainder by `10^(n + 2)` has the same opcode pair, and the mode digits below position `n` (R64). -/
theorem opcodePair_emod_pow (hw : 0 ≤ w) (n : Nat) : opcodePair (w % 10 ^ (n + 2)) = opcodePair w := by
  have hdvd : (100 : Int) ∣ 10 ^ (n + 2) := ⟨10 ^ n, by ring⟩
  rw [opcodePair_of_nonneg (Int.emod_nonneg _ (by positivity)), opcodePair_of_nonneg hw, Int.emod_emod_of_dvd _ hdvd]

theorem modeSequence_emod_pow (hw : 0 ≤ w) (n : Nat) : modeSequence (w % 10 ^ (n + 2)) = modeSequence w % 10 ^ n := by
  obtain ⟨m, rfl⟩ := Int.eq_ofNat_of_zero_le hw
  have hcast : (m : Int) % 10 ^ (n + 2) = ((m % (100 * 10 ^ n) : Nat) : Int) := by push_cast; ring_nf
  rw [hcast, modeSequence_of_nonneg (Int.natCast_nonneg _), modeSequence_of_nonneg (Int.natCast_nonneg _),
    Int.toNat_natCast, Int.toNat_natCast, Nat.mod_mul_right_div_self]

end ModeDigits

/-! ### Decode, once the operation is known -/

section Decode

variable {cfg : Config} {w w' : Int} {op : Opcode}

/-- With its operation known, a word decodes by its mode digits and its unused digits (R73). -/
theorem decode_of_ofPair (hop : Opcode.ofPair cfg.variant (opcodePair w) = some op) :
    decode cfg w = (do
      let h ← op.header (fun k => modeOfDigit cfg.variant (digit (modeSequence w) k))
      checkUnused cfg op.arity (modeSequence w)
      return h) := by
  rw [decode, hop]

/-- No operation: the opcode pair is the failure (R73, R136). -/
theorem decode_of_ofPair_none (h : Opcode.ofPair cfg.variant (opcodePair w) = none) :
    decode cfg w = .error (.unknownOpcode (opcodePair w)) :=
  decode_error.mpr (.inl ⟨h, rfl⟩)

/-- The lowest examined digit that the variant does not accept is the failure (R72, R73, R137). -/
theorem decode_of_digit_not_accepted (hop : Opcode.ofPair cfg.variant (opcodePair w) = some op) {k : Nat}
    (hex : Claims.Examined cfg op k) (hk : ¬ Claims.Accepted cfg.variant (Claims.modeDigitAt w k))
    (hlt : ∀ j < k, Claims.Accepted cfg.variant (Claims.modeDigitAt w j)) :
    decode cfg w = .error (.invalidAddressingMode (Claims.modeDigitAt w k)) := by
  have hw : 0 ≤ w := nonneg_of_opcodePair (Opcode.ofPair_eq_some.mp hop).2
  have hfail := modeOfDigit_error.mpr ⟨hk, rfl⟩
  simp only [accepted_iff] at hlt
  simp only [← digit_modeSequence hw] at hfail hlt ⊢
  refine decode_error.mpr (.inr ⟨op, hop, ?_⟩)
  by_cases hka : k < op.arity
  · exact .inl (Opcode.header_error_iff.mpr ⟨k, hka, hfail, hlt⟩)
  · exact .inr ⟨Opcode.header_ok_iff.mpr fun j hj => hlt j (by omega),
      checkUnused_error.mpr ⟨hex.resolve_left hka, k, by omega, hfail, fun j _ => hlt j⟩⟩

/-- Under `ignore` two words decode alike where the opcode pair and the digits below the arity agree (R72). -/
theorem decode_congr_of_ignore (hignore : cfg.unusedDigits = .ignore)
    (hop : Opcode.ofPair cfg.variant (opcodePair w) = some op) (hpair : opcodePair w' = opcodePair w)
    (hdigit : ∀ k < op.arity, digit (modeSequence w') k = digit (modeSequence w) k) : decode cfg w' = decode cfg w := by
  have hunused : ∀ m, checkUnused cfg op.arity m = .ok () := fun m => by simp [checkUnused, hignore]
  rw [decode_of_ofPair hop, decode_of_ofPair (hpair ▸ hop), hunused, hunused,
    Opcode.header_congr fun k hk => by rw [hdigit k hk]]

end Decode

/-! ### The dst digit -/

/-- The position of an operation's write operand among its operands (R66). -/
def Opcode.dstPosition : Opcode → Option Nat
  | .add => some 2
  | .mul => some 2
  | .input => some 0
  | .output => none
  | .jumpIfTrue => none
  | .jumpIfFalse => none
  | .lessThan => some 2
  | .equals => some 2
  | .halt => none

section Dst

variable {op : Opcode} {p : Nat}

/-- The write operand is the last one (R66). -/
theorem Opcode.arity_of_dstPosition (h : op.dstPosition = some p) : op.arity = p + 1 := by
  cases op <;> cases h <;> rfl

/-- The mode digit of a write operand has to be accepted, and its mode is not kept (R71). -/
theorem Opcode.header_congr_dst {mode mode' : Nat → Except DecodeFailure Mode} (h : op.dstPosition = some p)
    (hlt : ∀ k < p, mode' k = mode k) {m m' : Mode} (hm : mode p = .ok m) (hm' : mode' p = .ok m') :
    op.header mode' = op.header mode := by
  cases op <;> cases h
  case input => simp only [Opcode.header, hm, hm']; rfl
  all_goals simp only [Opcode.header, hlt 0 (by omega), hlt 1 (by omega), hm, hm']; rfl

/-- The opcode pairs with a dst digit, by its position (R66). -/
theorem exists_dstPosition {opc : Int} (h : (p = 2 ∧ opc ∈ [(1 : Int), 2, 7, 8]) ∨ (p = 0 ∧ opc = 3)) :
    ∃ op : Opcode, op.dstPosition = some p ∧ (op.number : Int) = opc := by
  simp only [List.mem_cons, List.not_mem_nil, or_false] at h
  rcases h with ⟨rfl, rfl | rfl | rfl | rfl⟩ | ⟨rfl, rfl⟩
  exacts [⟨.add, rfl, rfl⟩, ⟨.mul, rfl, rfl⟩, ⟨.lessThan, rfl, rfl⟩, ⟨.equals, rfl, rfl⟩, ⟨.input, rfl, rfl⟩]

/-- The unused digits stand above the dst digit, so that setting it does not change their check (R72). -/
theorem checkUnused_add_dst {cfg : Config} {m d : Nat} (hp : digit m p = 0) (hd : d ≤ 9) :
    checkUnused cfg (p + 1) (m + d * 10 ^ p) = checkUnused cfg (p + 1) m := by
  have hdiv : (m + d * 10 ^ p) / 10 ^ (p + 1) = m / 10 ^ (p + 1) := by
    rw [digit] at hp
    rw [pow_succ, ← Nat.div_div_eq_div_mul, ← Nat.div_div_eq_div_mul, Nat.add_mul_div_right _ _ (by positivity)]
    omega
  rw [checkUnused, checkUnused, hdiv]

section Words

variable {cfg : Config} {w : Int} (hop : Opcode.ofPair cfg.variant (opcodePair w) = some op)
  (hdst : op.dstPosition = some p) (hp : Claims.modeDigitAt w p = 0) {d : Nat}

include hop hdst hp

/-- A dst digit that the variant accepts decodes as a dst digit 0 (R71). -/
theorem decode_add_dst_of_accepted (hd : Claims.Accepted cfg.variant d) :
    decode cfg (w + d * 10 ^ (p + 2)) = decode cfg w := by
  have hw : 0 ≤ w := nonneg_of_opcodePair (Opcode.ofPair_eq_some.mp hop).2
  have hd9 : d ≤ 9 := by omega
  obtain ⟨m, hm⟩ := accepted_iff.mp hd
  have hdigit := digit_add_mul_pow (digit_modeSequence hw p ▸ hp) hd9
  have hheader : op.header (fun k => modeOfDigit cfg.variant (digit (modeSequence w + d * 10 ^ p) k)) =
      op.header (fun k => modeOfDigit cfg.variant (digit (modeSequence w) k)) := by
    refine Opcode.header_congr_dst hdst (fun k hk => ?_) (m := .position) (m' := m) ?_ ?_
    · rw [hdigit, if_neg hk.ne]
    · rw [digit_modeSequence hw, hp]; rfl
    · rw [hdigit, if_pos rfl, hm]
  rw [decode_of_ofPair hop, decode_of_ofPair ((opcodePair_add_mul_pow hw d p).symm ▸ hop),
    modeSequence_add_mul_pow hw, hheader, Opcode.arity_of_dstPosition hdst,
    checkUnused_add_dst (digit_modeSequence hw p ▸ hp) hd9]

/-- A dst digit that the variant does not accept raises, the digits below it being accepted (R71, R137). -/
theorem decode_add_dst_of_not_accepted (hlt : ∀ j < p, Claims.Accepted cfg.variant (Claims.modeDigitAt w j))
    (hd9 : d ≤ 9) (hd : ¬ Claims.Accepted cfg.variant d) :
    decode cfg (w + d * 10 ^ (p + 2)) = .error (.invalidAddressingMode d) := by
  have hw : 0 ≤ w := nonneg_of_opcodePair (Opcode.ofPair_eq_some.mp hop).2
  have hdigit := modeDigitAt_add_mul_pow hw hp hd9
  have harity := Opcode.arity_of_dstPosition hdst
  have hfail := decode_of_digit_not_accepted (w := w + d * 10 ^ (p + 2)) (k := p)
    ((opcodePair_add_mul_pow hw d p).symm ▸ hop) (.inl (by omega)) (by rwa [hdigit, if_pos rfl])
    (fun j hj => by rw [hdigit, if_neg hj.ne]; exact hlt j hj)
  rwa [hdigit, if_pos rfl] at hfail

end Words

end Dst

/-! ### The reduced set -/

section Reduced

variable {cfg : Config} {w : Int} {op : Opcode}

theorem Opcode.ofPair_extended (h : (op.number : Int) = opcodePair w) :
    Opcode.ofPair .extended (opcodePair w) = some op :=
  Opcode.ofPair_eq_some.mpr ⟨validOpcodes_extended op, h⟩

theorem Opcode.number_of_reduced (h : op ∈ validOpcodes .reduced) :
    op.number = 1 ∨ op.number = 2 ∨ op.number = 99 := by
  simp only [validOpcodes, List.mem_cons, List.not_mem_nil, or_false] at h
  rcases h with rfl | rfl | rfl <;> decide

/-- Add and Mul, with three operands each, are in every variant (R66, R68). -/
theorem Opcode.exists_ofPair_of_arity_three {v : Variant} {opc : Int} (h : opc = 1 ∨ opc = 2) :
    ∃ op : Opcode, op.arity = 3 ∧ Opcode.ofPair v opc = some op := by
  rcases h with rfl | rfl
  · exact ⟨.add, rfl, by cases v <;> rfl⟩
  · exact ⟨.mul, rfl, by cases v <;> rfl⟩

/-- What the reduced set accepts is the digit 0, which every variant accepts alike (R75). -/
theorem modeOfDigit_of_reduced {d : Nat} {m : Mode} (h : modeOfDigit .reduced d = .ok m) (v : Variant) :
    modeOfDigit v d = .ok m := by
  rcases modeOfDigit_ok.mp h with ⟨hd, hm⟩ | ⟨_, hv, _⟩
  · exact modeOfDigit_ok.mpr (.inl ⟨hd, hm⟩)
  · contradiction

theorem Opcode.header_mono {mode mode' : Nat → Except DecodeFailure Mode} {h : Header}
    (hmode : ∀ k m, mode k = .ok m → mode' k = .ok m) (hh : op.header mode = .ok h) : op.header mode' = .ok h := by
  rw [← hh]
  refine Opcode.header_congr fun k hk => ?_
  obtain ⟨m, hm⟩ := Opcode.header_ok_iff.mp ⟨h, hh⟩ k hk
  rw [hm, hmode k m hm]

/-- What decodes under `reduced` decodes alike under `extended` (R75). -/
theorem decode_extended_of_reduced {h : Header} (hd : decode { cfg with variant := .reduced } w = .ok h) :
    decode { cfg with variant := .extended } w = .ok h := by
  obtain ⟨op, hop, hheader, hunused⟩ := decode_ok.mp hd
  refine decode_ok.mpr ⟨op, Opcode.ofPair_extended (Opcode.ofPair_eq_some.mp hop).2,
    Opcode.header_mono (fun k m hm => modeOfDigit_of_reduced hm _) hheader, checkUnused_ok.mpr fun hval k hk => ?_⟩
  obtain ⟨m, hm⟩ := checkUnused_ok.mp hunused hval k hk
  exact ⟨m, modeOfDigit_of_reduced hm _⟩

end Reduced

/-! ### Back from the encoding -/

/-- What the first decode stage keeps of an instruction (R73). -/
def Instr.header : Instr → Header
  | .add a b _ => .add a.mode b.mode
  | .mul a b _ => .mul a.mode b.mode
  | .input _ => .input
  | .output a => .output a.mode
  | .jumpIfTrue a target => .jumpIfTrue a.mode target.mode
  | .jumpIfFalse a target => .jumpIfFalse a.mode target.mode
  | .lessThan a b _ => .lessThan a.mode b.mode
  | .equals a b _ => .equals a.mode b.mode
  | .halt => .halt

section Encode

variable {cfg : Config} {i : Instr}

theorem Instr.header_opcode (i : Instr) : i.header.opcode = i.opcode := by cases i <;> rfl

theorem Instr.opcode_mem_validOpcodes {v : Variant} (h : i.InVariant v) : i.opcode ∈ validOpcodes v := by
  rcases h with rfl | hadd | hmul | hhalt
  · exact validOpcodes_extended _
  · rw [hadd]; cases v <;> decide
  · rw [hmul]; cases v <;> decide
  · rw [hhalt]; cases v <;> decide

/-- The mode of operand `k` in a canonical word: that of the read operand, Position for every absent digit (R78). -/
def Instr.modeAt (i : Instr) (k : Nat) : Mode := ((i.readOperands.map ReadOperand.mode)[k]?).getD .position

/-- Every digit of a canonical word is accepted where the variant has the instruction's modes (R75, R78). -/
theorem modeOfDigit_canonicalWord {v : Variant} (h : i.ModesInVariant v) (k : Nat) :
    modeOfDigit v (digit (modeSequence i.canonicalWord) k) = .ok (i.modeAt k) := by
  rw [modeSequence_canonicalWord, digit_modeNumber, Instr.modeAt, List.getElem?_map]
  cases hk : i.readOperands[k]? with
  | none => rfl
  | some o =>
    cases hm : o.mode with
    | position => simp [hm, Mode.digit, modeOfDigit]
    | immediate =>
      rcases h with rfl | hpos
      · simp [hm, Mode.digit, modeOfDigit]
      · exact absurd (hpos o (List.mem_of_getElem? hk)) (by simp [hm])

/-- The canonical modes give the instruction's header (R73, R78). -/
theorem Instr.header_modeAt (i : Instr) : i.opcode.header (fun k => .ok (i.modeAt k)) = .ok i.header := by
  cases i <;> rfl

theorem decode_canonicalWord (hv : i.InVariant cfg.variant) (hm : i.ModesInVariant cfg.variant) :
    decode cfg i.canonicalWord = .ok i.header := by
  refine decode_ok.mpr ⟨i.opcode, ?_, ?_, checkUnused_ok.mpr fun _ k _ => ⟨_, modeOfDigit_canonicalWord hm k⟩⟩
  · exact Opcode.ofPair_eq_some.mpr ⟨Instr.opcode_mem_validOpcodes hv, (opcodePair_canonicalWord i).symm⟩
  · simp only [modeOfDigit_canonicalWord hm, Instr.header_modeAt]

/-- The second stage puts the raw operands back where they were (R76). -/
theorem Instr.assemble_header (i : Instr) (rest : List Word) :
    i.header.assemble (operandIn (i.raws ++ rest)) = .ok i := by
  cases i <;> rfl

theorem decodeWords_of_decode {w : Word} {ws : List Word} {h : Header} (hd : decode cfg w = .ok h)
    (hi : h.assemble (operandIn ws) = .ok i) : decodeWords cfg (w :: ws) = .ok (i, ws.drop h.opcode.arity) := by
  simp only [decodeWords, hd, hi]

theorem decodeWords_encode (hi : i.WellFormed cfg) (rest : List Word) :
    decodeWords cfg (encode i ++ rest) = .ok (i, rest) := by
  obtain ⟨_, hv, hm⟩ := hi
  have hdrop : (i.raws ++ rest).drop i.header.opcode.arity = rest := by
    rw [i.header_opcode, ← (Machine.Instr.readOperandsFirst i).2, List.drop_left]
  calc decodeWords cfg (encode i ++ rest)
      = decodeWords cfg (i.canonicalWord :: (i.raws ++ rest)) := rfl
    _ = .ok (i, (i.raws ++ rest).drop i.header.opcode.arity) :=
        decodeWords_of_decode (decode_canonicalWord hv hm) (i.assemble_header rest)
    _ = .ok (i, rest) := by rw [hdrop]

theorem Mode.digit_eq_digitFor (m : Mode) : m.digit = Claims.digitFor m := by cases m <;> rfl

/-- The model's canonical word is the one R78 writes out. -/
theorem Instr.canonicalWord_eq_canonicalWordFor (i : Instr) : i.canonicalWord = (Claims.canonicalWordFor i : Int) := by
  unfold Instr.canonicalWord
  congr 1
  cases i <;>
    simp only [Instr.opcode, Opcode.number, Instr.readOperands, List.map_cons, List.map_nil, modeNumber,
      Mode.digit_eq_digitFor, Claims.canonicalWordFor] <;>
    omega

end Encode

end Sys2Proof

namespace Sys2Proof.Claims

open Sys2Proof.Machine

/-- Settles O1: both decode stages undo the encoding, and the canonical word is R78's. -/
theorem decodeOfEncodeIsTheInstruction : Obligations.DecodeOfEncodeIsTheInstruction :=
  ⟨fun _ _ rest hi => decodeWords_encode hi rest, fun i => by rw [encode, i.canonicalWord_eq_canonicalWordFor]⟩

/-- Settles O4: the opcode pair of a negative word is in `[-99, 0]`, which selects no operation. -/
theorem negativeWordsAreUnknownOpcodes : Obligations.NegativeWordsAreUnknownOpcodes := by
  refine ⟨fun cfg w hw => ?_, by decide, by decide⟩
  obtain ⟨hlo, hhi⟩ := opcodePair_of_neg hw
  exact ⟨opcodePair w, hlo, hhi, Int.dvd_self_sub_tmod, decode_of_ofPair_none (Opcode.ofPair_of_nonpos hhi)⟩

/-- Settles O5. The reduced operations have the numbers 1, 2 and 99, and the reduced set accepts the digit 0 only. -/
theorem reducedSetIsAStrictSubset : Obligations.ReducedSetIsAStrictSubset := by
  intro cfg w
  refine ⟨fun hlo hhi => decode_of_ofPair_none (Opcode.ofPair_eq_none.mpr fun op hop => ?_),
    fun hopc k hk hone hzero => ?_, fun _ => decode_extended_of_reduced⟩
  · have hnum := Opcode.number_of_reduced hop
    unfold opcodePair
    omega
  · obtain ⟨op, harity, hop⟩ := Opcode.exists_ofPair_of_arity_three (v := .reduced) hopc
    have hfail := decode_of_digit_not_accepted (cfg := { cfg with variant := .reduced }) hop (k := k)
      (.inl (by omega)) (by simp [hone]) fun j hj => .inl (hzero j hj)
    rwa [hone] at hfail

/-- Settles O6. -/
theorem unusedModeDigits : Obligations.UnusedModeDigits := by
  refine ⟨fun cfg w op hw hop hnum => ?_, by decide, by decide, by decide, by decide⟩
  have hsome : Opcode.ofPair cfg.variant (opcodePair w) = some op :=
    Opcode.ofPair_eq_some.mpr ⟨hop, by rw [opcodePair_of_nonneg hw, hnum]⟩
  refine ⟨fun hignore => ?_, fun hvalidate hbelow k _ hk hbetween => ?_⟩
  · refine (decode_congr_of_ignore hignore hsome (opcodePair_emod_pow hw _) fun k hk => ?_).symm
    rw [modeSequence_emod_pow hw, digit_mod_pow hk]
  · refine decode_of_digit_not_accepted hsome (.inr hvalidate) hk fun j hj => ?_
    rcases lt_or_ge j op.arity with hja | hja
    exacts [hbelow j hja, hbetween j hja hj]

/-- Settles O7. -/
theorem destinationDigitIsCheckedAndIgnored : Obligations.DestinationDigitIsCheckedAndIgnored := by
  intro cfg w p hv hw hopc hp
  obtain ⟨op, hdst, hnum⟩ := exists_dstPosition hopc
  rw [← opcodePair_of_nonneg hw] at hnum
  have hop : Opcode.ofPair cfg.variant (opcodePair w) = some op := hv ▸ Opcode.ofPair_extended hnum
  refine ⟨by simpa using decode_add_dst_of_accepted hop hdst hp (.inr ⟨rfl, hv⟩), fun hlt d hlo hhi => ?_⟩
  exact decode_add_dst_of_not_accepted hop hdst hp (hv ▸ hlt) hhi (by omega)

/-- Settles O2: every row is evaluated. -/
theorem tableOfDecodedWords : Obligations.TableOfDecodedWords := by
  unfold Obligations.TableOfDecodedWords
  decide

end Sys2Proof.Claims

/-! SUPPORT. Two machines side by side: what a step reads (spec/40_engine.md R109). The two common shapes of a meaning,
one rule per state operation, one per meaning, and the step. -/

namespace Sys2Proof.Machine

/-! ### The shapes of the meanings -/

/-- The shape of Add, Mul, LessThan and Equals: `dst <- g(a, b)`, then the fall-through (R110, R111, R125, R126). -/
def execStore (g : Word → Word → Except FaultKind Word) (a b : ReadOperand) (dst : Word) (s : State) : Outcome :=
  s.commit (do
    let x ← s.val a
    let y ← s.val b
    let r ← g x y
    let t ← s.memWrite dst r
    return t.advance 4)

/-- The shape of the two conditional jumps, taken where `P` holds of the condition (R120, R121). -/
def execJump (P : Word → Prop) [DecidablePred P] (a target : ReadOperand) (s : State) : Outcome :=
  s.commit (do
    let c ← s.val a
    let p ← s.val target
    if P c then s.jumpTo p else .ok (s.advance 3))

section Shapes

variable (a b : ReadOperand) (dst : Word) (s : State)

theorem exec_add : exec (.add a b dst) s = execStore (aluAdd s.cfg) a b dst s := rfl

theorem exec_mul : exec (.mul a b dst) s = execStore (aluMul s.cfg) a b dst s := rfl

theorem exec_lessThan : exec (.lessThan a b dst) s = execStore (fun x y => .ok (aluLt x y)) a b dst s := rfl

theorem exec_equals : exec (.equals a b dst) s = execStore (fun x y => .ok (aluEq x y)) a b dst s := rfl

theorem exec_jumpIfTrue : exec (.jumpIfTrue a b) s = execJump (fun c => c ≠ 0) a b s := rfl

theorem exec_jumpIfFalse : exec (.jumpIfFalse a b) s = execJump (fun c => c = 0) a b s := rfl

end Shapes

/-! ### Two machines in step -/

/-- From `s` and `u` the states `t` and `v` are reached by the same move: they agree on all that a step may read outside
the channels, the same values were output and as many items were taken. -/
structure InStep (s u t v : State) : Prop where
  cfg : v.cfg = t.cfg
  mem : v.mem = t.mem
  pc : v.pc = t.pc
  halted : v.halted = t.halted
  fault : v.fault = t.fault
  output : ∃ out, t.output = s.output ++ out ∧ v.output = u.output ++ out
  input : ∃ n, t.input = s.input.drop n ∧ v.input = u.input.drop n

/-- Two sequences end alike: with states in step, or with the same fault. -/
inductive EndAlike (s u : State) : Except FaultKind State → Except FaultKind State → Prop where
  | ok {t v : State} (h : InStep s u t v) : EndAlike s u (.ok t) (.ok v)
  | error (k : FaultKind) : EndAlike s u (.error k) (.error k)

/-- Two outcomes are next states in step. -/
def StepAlike (s u : State) (o o' : Outcome) : Prop := ∃ t v, o = .next t ∧ o' = .next v ∧ InStep s u t v

namespace InStep

variable {s u t v : State}

theorem refl (hcfg : u.cfg = s.cfg) (hmem : u.mem = s.mem) (hpc : u.pc = s.pc) (hhalted : u.halted = s.halted)
    (hfault : u.fault = s.fault) : InStep s u s u :=
  ⟨hcfg, hmem, hpc, hhalted, hfault, ⟨[], by simp⟩, ⟨0, rfl, rfl⟩⟩

/-! #### One rule per update -/

variable (h : InStep s u t v)

include h

theorem setMem (m : Memory) : InStep s u (t.setMem m) (v.setMem m) := { h with mem := rfl }

theorem setPc (n : Nat) : InStep s u (t.setPc n) (v.setPc n) := { h with pc := rfl }

theorem setHalted (b : Bool) : InStep s u (t.setHalted b) (v.setHalted b) := { h with halted := rfl }

theorem setFault (k : Option FaultKind) : InStep s u (t.setFault k) (v.setFault k) := { h with fault := rfl }

theorem advance (n : Nat) : InStep s u (t.advance n) (v.advance n) := { h with pc := congrArg (· + n) h.pc }

theorem outPut (x : Word) : InStep s u (t.outPut x) (v.outPut x) :=
  let ⟨out, ht, hv⟩ := h.output
  { h with output := ⟨out ++ [x], by simp [ht], by simp [hv]⟩ }

omit h in
/-- Both machines take their next item. -/
theorem takeItem (h : InStep s u s u) {item item' : InputItem} {rest rest' : List InputItem}
    (hs : s.input = item :: rest) (hu : u.input = item' :: rest') : InStep s u (s.setInput rest) (u.setInput rest') :=
  { h with input := ⟨1, by simp [hs], by simp [hu]⟩ }

/-! #### One rule per read -/

theorem inBounds_iff (a : Int) : v.InBounds a ↔ t.InBounds a := by rw [State.InBounds, h.mem]

theorem val_eq (o : ReadOperand) : v.val o = t.val o := by
  simp only [State.val, State.memRead, State.InBounds, h.mem]

theorem fetch_eq : v.fetch = t.fetch := by
  have hcell : v.operandCell = t.operandCell := by
    funext k
    simp only [State.operandCell, State.memRead, State.InBounds, h.mem, h.pc]
  simp only [State.fetch, State.memRead, State.InBounds, h.cfg, h.mem, h.pc, hcell]

/-! #### One rule per checked operation -/

theorem memWrite (a : Int) (r : Word) : EndAlike s u (t.memWrite a r) (v.memWrite a r) := by
  by_cases hb : t.InBounds a
  · rw [State.memWrite_ok.mpr ⟨hb, rfl⟩, State.memWrite_ok.mpr ⟨(h.inBounds_iff a).mpr hb, rfl⟩, h.mem]
    exact .ok (h.setMem _)
  · rw [State.memWrite_error.mpr ⟨hb, rfl⟩, State.memWrite_error.mpr ⟨mt (h.inBounds_iff a).mp hb, rfl⟩]
    exact .error _

theorem jumpTo (a : Word) : EndAlike s u (t.jumpTo a) (v.jumpTo a) := by
  by_cases hb : t.InBounds a
  · rw [State.jumpTo_ok.mpr ⟨hb, rfl⟩, State.jumpTo_ok.mpr ⟨(h.inBounds_iff a).mpr hb, rfl⟩]
    exact .ok (h.setPc _)
  · rw [State.jumpTo_error.mpr ⟨hb, rfl⟩, State.jumpTo_error.mpr ⟨mt (h.inBounds_iff a).mp hb, rfl⟩]
    exact .error _

theorem commit {r r' : Except FaultKind State} (hr : EndAlike s u r r') : StepAlike s u (t.commit r) (v.commit r') := by
  cases hr with
  | ok hnext => exact ⟨_, _, rfl, rfl, hnext⟩
  | error k => exact ⟨_, _, rfl, rfl, h.setFault (some k)⟩

end InStep

namespace EndAlike

variable {s u : State}

/-- A value that both machines read alike, and what each does with it. -/
theorem bind {α : Type} {x : Except FaultKind α} {f f' : α → Except FaultKind State}
    (h : ∀ a, EndAlike s u (f a) (f' a)) : EndAlike s u (x >>= f) (x >>= f') := by
  cases x with
  | error k => exact .error k
  | ok a => exact h a

theorem advance {r r' : Except FaultKind State} (h : EndAlike s u r r') (n : Nat) :
    EndAlike s u (do let t ← r; return t.advance n) (do let v ← r'; return v.advance n) := by
  cases h with
  | ok h => exact .ok (h.advance n)
  | error k => exact .error k

end EndAlike

/-! ### One rule per meaning -/

section Meanings

variable {s u : State} (h : InStep s u s u)

include h

theorem execStore_stepAlike (g : Word → Word → Except FaultKind Word) (a b : ReadOperand) (dst : Word) :
    StepAlike s u (execStore g a b dst s) (execStore g a b dst u) := by
  unfold execStore
  rw [h.val_eq a, h.val_eq b]
  exact h.commit <| .bind fun _ => .bind fun _ => .bind fun r => (h.memWrite dst r).advance 4

theorem execJump_stepAlike (P : Word → Prop) [DecidablePred P] (a target : ReadOperand) :
    StepAlike s u (execJump P a target s) (execJump P a target u) := by
  unfold execJump
  rw [h.val_eq a, h.val_eq target]
  refine h.commit <| .bind fun c => .bind fun p => ?_
  by_cases hP : P c
  · rw [if_pos hP, if_pos hP]
    exact h.jumpTo p
  · rw [if_neg hP, if_neg hP]
    exact .ok (h.advance 3)

theorem execOutput_stepAlike (a : ReadOperand) : StepAlike s u (execOutput a s) (execOutput a u) := by
  unfold execOutput
  rw [h.val_eq a]
  exact h.commit <| .bind fun x => .ok ((h.outPut x).advance 2)

/-- In reads the head of the input and no more: both machines wait, or both take the same item. -/
theorem execInput_stepAlike (dst : Word) (hhead : u.input.head? = s.input.head?) :
    StepAlike s u (execInput dst s) (execInput dst u) := by
  unfold execInput
  cases hs : s.input with
  | nil =>
    have hu : u.input = [] := by simpa [hs] using hhead
    rw [hu]
    exact ⟨s, u, rfl, rfl, h⟩
  | cons item rest =>
    obtain ⟨rest', hu⟩ : ∃ rest', u.input = item :: rest' := List.head?_eq_some_iff.mp (by simpa [hs] using hhead)
    rw [hu]
    have htaken := h.takeItem hs hu
    exact htaken.commit <| .bind fun v => (htaken.memWrite dst v).advance 2

/-- Every meaning moves two machines in step alike, In where the heads of their inputs are the same. -/
theorem exec_stepAlike (i : Instr) (hhead : ∀ dst, i = .input dst → u.input.head? = s.input.head?) :
    StepAlike s u (exec i s) (exec i u) := by
  cases i with
  | add a b dst =>
    rw [exec_add, exec_add, h.cfg]
    exact execStore_stepAlike h _ a b dst
  | mul a b dst =>
    rw [exec_mul, exec_mul, h.cfg]
    exact execStore_stepAlike h _ a b dst
  | input dst => exact execInput_stepAlike h dst (hhead dst rfl)
  | output a => exact execOutput_stepAlike h a
  | jumpIfTrue a target =>
    rw [exec_jumpIfTrue, exec_jumpIfTrue]
    exact execJump_stepAlike h _ a target
  | jumpIfFalse a target =>
    rw [exec_jumpIfFalse, exec_jumpIfFalse]
    exact execJump_stepAlike h _ a target
  | lessThan a b dst =>
    rw [exec_lessThan, exec_lessThan]
    exact execStore_stepAlike h _ a b dst
  | equals a b dst =>
    rw [exec_equals, exec_equals]
    exact execStore_stepAlike h _ a b dst
  | halt => exact ⟨_, _, rfl, rfl, h.setHalted true⟩

/-! ### The step -/

theorem step_stepAlike (hhead : ∀ dst, s.fetch = .ok (.input dst) → u.input.head? = s.input.head?)
    {t : State} (hstep : step s = .next t) : ∃ v, step u = .next v ∧ InStep s u t v := by
  obtain ⟨hh, hf, hcase⟩ := step_next.mp hstep
  have hhu : u.halted = false := h.halted.trans hh
  have hfu : u.fault = none := h.fault.trans hf
  rcases hcase with ⟨k, hk, rfl⟩ | ⟨i, hi, hexec⟩
  · exact ⟨_, step_next.mpr ⟨hhu, hfu, .inl ⟨k, h.fetch_eq.trans hk, rfl⟩⟩, h.setFault (some k)⟩
  · obtain ⟨t', v, hs, hu, hnext⟩ := exec_stepAlike h i fun dst hdst => hhead dst (hdst ▸ hi)
    obtain rfl : t' = t := Host.Outcome.next.inj (hs.symm.trans hexec)
    exact ⟨v, (step_of_fetch hhu hfu (h.fetch_eq.trans hi)).trans hu, hnext⟩

omit h in
/-- The stops of a machine: `halted` first, then the fault it holds (R91). -/
theorem step_fault {r : Fault} :
    step s = .fault r ↔
      (s.halted = true ∧ r = .halted) ∨ (s.halted = false ∧ ∃ k, s.fault = some k ∧ r = .faulted k) := by
  cases hh : s.halted with
  | true => simp [step_of_halted hh, eq_comm]
  | false =>
    cases hf : s.fault with
    | some k => simp [step_of_fault hh hf, eq_comm]
    | none =>
      obtain ⟨t, ht⟩ := exists_step_of_running hh hf
      simp [ht]

theorem step_fault_alike {r : Fault} (hstep : step s = .fault r) : step u = .fault r := by
  rw [step_fault, h.halted, h.fault]
  exact step_fault.mp hstep

end Meanings

end Sys2Proof.Machine

namespace Sys2Proof.Claims

open Sys2Proof.Machine

/-- Settles O34. The two states are in step before the step, and every operation a step is made of keeps two machines in
step: each reads memory, `pc` and parameters alike, and In alone looks at the input, at its head. -/
theorem stepReadsNothingElse : Obligations.StepReadsNothingElse := by
  intro s u hcfg hmem hpc hhalted hfault hhead
  have h := InStep.refl hcfg hmem hpc hhalted hfault
  refine ⟨fun r => step_fault_alike h, fun t hstep => ?_⟩
  obtain ⟨v, hv, hnext⟩ := step_stepAlike h hhead hstep
  exact ⟨v, hv, hnext.cfg, hnext.mem, hnext.pc, hnext.halted, hnext.fault, hnext.output, hnext.input⟩

end Sys2Proof.Claims

/-! SUPPORT. The fetch from the words of memory, the machines a load starts from, overflow, and what the effects of an
instruction leave unchanged. The other obligations of spec/40_engine.md follow. -/

namespace Sys2Proof

/-! ### The second decode stage, both ways -/

theorem forall_getElem?_cons {α : Type} {x : α} {xs : List α} {P : Nat → α → Prop} :
    (∀ k r, (x :: xs)[k]? = some r → P k r) ↔ P 0 x ∧ ∀ k r, xs[k]? = some r → P (k + 1) r := by
  constructor
  · exact fun h => ⟨h 0 x rfl, fun k r hr => h (k + 1) r hr⟩
  · rintro ⟨h0, hs⟩ k r hr
    cases k with
    | zero => exact Option.some.inj hr ▸ h0
    | succ k => exact hs k r hr

theorem ReadOperand.mk_mode_eq_iff {o : ReadOperand} {r : Word} : (⟨o.mode, r⟩ : ReadOperand) = o ↔ r = o.raw := by
  cases o
  simp

section Assemble

variable {ε : Type} {operand : Nat → Except ε Word} {h : Header} {i : Instr}

/-- An instruction's header assembles it exactly from its raw operands, each from its own place (R76). -/
theorem Instr.assemble_header_iff :
    i.header.assemble operand = .ok i ↔ ∀ k r, i.raws[k]? = some r → operand k = .ok r := by
  cases i <;>
    simp [Instr.header, Instr.raws, Header.assemble, forall_getElem?_cons, ReadOperand.mk_mode_eq_iff,
      Machine.except_bind_ok, pure, Except.pure]

theorem Header.eq_of_assemble (hi : h.assemble operand = .ok i) : h = i.header := by
  cases h <;> simp only [Header.assemble, Machine.except_bind_ok, pure, Except.pure, Except.ok.injEq] at hi
  case halt => subst hi; rfl
  case input => obtain ⟨_, _, rfl⟩ := hi; rfl
  case output => obtain ⟨_, _, rfl⟩ := hi; rfl
  case jumpIfTrue => obtain ⟨_, _, _, _, rfl⟩ := hi; rfl
  case jumpIfFalse => obtain ⟨_, _, _, _, rfl⟩ := hi; rfl
  case add => obtain ⟨_, _, _, _, _, _, rfl⟩ := hi; rfl
  case mul => obtain ⟨_, _, _, _, _, _, rfl⟩ := hi; rfl
  case lessThan => obtain ⟨_, _, _, _, _, _, rfl⟩ := hi; rfl
  case equals => obtain ⟨_, _, _, _, _, _, rfl⟩ := hi; rfl

/-- What an assembled instruction is: the one with this header and the supplied raw operands (R76). -/
theorem Header.assemble_ok :
    h.assemble operand = .ok i ↔ h = i.header ∧ ∀ k r, i.raws[k]? = some r → operand k = .ok r := by
  constructor
  · intro hi
    obtain rfl := Header.eq_of_assemble hi
    exact ⟨rfl, Instr.assemble_header_iff.mp hi⟩
  · rintro ⟨rfl, hops⟩
    exact Instr.assemble_header_iff.mpr hops

end Assemble

theorem Instr.eq_halt_of_opcode {i : Instr} (hi : i.opcode = .halt) : i = .halt := by
  cases i with
  | halt => rfl
  | _ => cases hi

theorem operandIn_ok {ws : List Word} {k : Nat} {r : Word} : operandIn ws k = .ok r ↔ ws[k]? = some r := by
  unfold operandIn
  split
  case h_1 h => simp [h]
  case h_2 h => simp [h]

/-- A list of words that holds an instruction has its first word and its raw operands at their places (R63). -/
theorem decodeWords_ok {cfg : Config} {ws rest : List Word} {i : Instr} (h : decodeWords cfg ws = .ok (i, rest)) :
    ∃ (w : Word) (tail : List Word), ws = w :: tail ∧ decode cfg w = .ok i.header ∧
      ∀ (k : Nat) (r : Word), i.raws[k]? = some r → tail[k]? = some r := by
  cases ws with
  | nil => cases h
  | cons w tail =>
    cases hd : decode cfg w with
    | error f => simp [decodeWords, hd] at h
    | ok hdr =>
      cases hasm : hdr.assemble (operandIn tail) with
      | error e => simp [decodeWords, hd, hasm] at h
      | ok j =>
        obtain ⟨rfl, _⟩ : j = i ∧ _ := by simpa [decodeWords, hd, hasm] using h
        obtain ⟨rfl, hops⟩ := Header.assemble_ok.mp hasm
        exact ⟨w, tail, rfl, hd, fun k r hr => operandIn_ok.mp (hops k r hr)⟩

namespace Machine

/-! ### The fetch -/

section Fetch

variable {s : State} {i : Instr}

/-- A fetch that succeeds reads every word of the instruction from memory (R93, R94). -/
theorem State.fetch_ok_iff_words :
    s.fetch = .ok i ↔ s.pc < s.mem.size ∧ decode s.cfg (s.mem.get s.pc) = .ok i.header ∧
      ∀ k r, i.raws[k]? = some r → s.pc + 1 + k < s.mem.size ∧ r = s.mem.get (s.pc + 1 + k) := by
  simp only [State.fetch_ok, Header.assemble_ok, State.operandCell_ok]
  refine and_congr_right fun _ => ⟨?_, fun ⟨hd, hops⟩ => ⟨_, hd, rfl, hops⟩⟩
  rintro ⟨_, hd, rfl, hops⟩
  exact ⟨hd, hops⟩

/-- Words at `pc` that decode to an instruction are what a fetch finds (R90, R94). -/
theorem State.fetch_of_wordsAtPc {ws rest : List Word} (hws : Claims.WordsAtPc s ws)
    (hdec : decodeWords s.cfg ws = .ok (i, rest)) : s.fetch = .ok i := by
  obtain ⟨w, tail, rfl, hd, hops⟩ := decodeWords_ok hdec
  obtain ⟨hlen, hget⟩ := hws
  rw [List.length_cons] at hlen
  have hword : s.mem.get s.pc = w := hget 0 (by simp)
  refine State.fetch_ok_iff_words.mpr ⟨by omega, hword ▸ hd, fun k r hr => ?_⟩
  obtain ⟨hk, hr⟩ := List.getElem?_eq_some_iff.mp (hops k r hr)
  have hcell : s.mem.get (s.pc + (k + 1)) = tail[k] := hget (k + 1) (by simpa using hk)
  exact ⟨by omega, by rw [← hr, ← hcell, Nat.add_assoc, Nat.add_comm 1 k]⟩

/-- Where an operand cell of the decoded word is outside memory, the fetch raises at cell `N` (R94). -/
theorem State.fetch_error_of_missing_cell {h : Header} (hpc : s.pc < s.mem.size)
    (hd : decode s.cfg (s.mem.get s.pc) = .ok h) (hmissing : s.mem.size < s.pc + 1 + h.opcode.arity) :
    s.fetch = .error (.outOfBounds (s.mem.size : Int)) := by
  cases hasm : h.assemble s.operandCell with
  | ok i =>
    have hwidth : s.pc + i.width ≤ s.mem.size := Header.assemble_width hpc hasm
    obtain rfl := Header.eq_of_assemble hasm
    rw [Instr.width, ← i.header_opcode] at hwidth
    omega
  | error e =>
    rw [← State.failsFirst_operandCell hpc (Header.assemble_error hasm)]
    exact State.fetch_error.mpr (.inr (.inr ⟨hpc, h, hd, hasm⟩))

variable (hh : s.halted = false) (hf : s.fault = none)

include hh hf

theorem step_raises_of_fetch_error {k : FaultKind} (hk : s.fetch = .error k) : Claims.Raises (step s) s k :=
  step_next.mpr ⟨hh, hf, .inl ⟨k, hk, rfl⟩⟩

/-- A `pc` outside memory is raised before anything is decoded (R92). -/
theorem step_raises_of_pc_outside (hpc : s.mem.size ≤ s.pc) : Claims.Raises (step s) s (.outOfBounds (s.pc : Int)) :=
  step_raises_of_fetch_error hh hf (State.fetch_error.mpr (.inl ⟨hpc, rfl⟩))

end Fetch

/-! ### Loaded machines -/

/-- The machine with these parameters that holds the empty program, its channels empty; `State.reset` has the default
parameters. -/
def State.unloaded (cfg : Config) : State := { State.reset with cfg := cfg }

theorem State.unloaded_wf {cfg : Config} (hcfg : cfg.Wf) : (State.unloaded cfg).Wf where
  cfg := hcfg
  size := Nat.zero_le _
  mem := ⟨.nil, by simp [State.unloaded, State.reset]⟩
  words := by simp [State.unloaded, State.reset]
  pc := Nat.le_refl _
  precise := fun _ h => nomatch h
  input := by simp [State.unloaded, State.reset]
  output := by simp [State.unloaded, State.reset]

/-- A load keeps of the state before it the parameters and the channels only (R159). -/
theorem State.load_eq_load_unloaded {s : State} (hin : s.input = []) (hout : s.output = []) (prog : List Int) :
    s.load prog = (State.unloaded s.cfg).load prog := by
  obtain ⟨cfg, mem, pc, halted, fault, input, output⟩ := s
  obtain rfl : input = [] := hin
  obtain rfl : output = [] := hout
  rfl

theorem Reachable.wf {cfg : Config} {s : State} (hcfg : cfg.Wf) (h : Reachable cfg s) : s.Wf := by
  induction h with
  | loaded s prog t hs hin hout hload =>
    rw [State.load_eq_load_unloaded hin hout, hs] at hload
    exact (State.unloaded_wf hcfg).load hload
  | served s r _ ih => exact ih.serve r

/-! ### Overflow -/

section Overflow

variable {s : State} {a b : ReadOperand} {dst x y e : Int}

/-- The exact result that Add and Mul narrow to a word (R101, R102). -/
theorem exec_eq_execStore_narrow {i : Instr} (hi : (i = .add a b dst ∧ e = x + y) ∨ (i = .mul a b dst ∧ e = x * y)) :
    ∃ g, exec i s = execStore g a b dst s ∧ g x y = narrow s.cfg e := by
  rcases hi with ⟨rfl, rfl⟩ | ⟨rfl, rfl⟩
  exacts [⟨aluAdd s.cfg, rfl, rfl⟩, ⟨aluMul s.cfg, rfl, rfl⟩]

/-- An ALU fault on resolved sources is raised before the destination is looked at (R103, R144). -/
theorem execStore_error {g : Word → Word → Except FaultKind Word} {k : FaultKind} (hx : Claims.Resolves s a x)
    (hy : Claims.Resolves s b y) (hk : g x y = .error k) : execStore g a b dst s = .next (s.setFault (some k)) := by
  rw [execStore, State.val_ok_iff_resolves.mpr hx, State.val_ok_iff_resolves.mpr hy]
  change s.commit (g x y >>= _) = _
  rw [hk]
  rfl

/-- The wrapped result is the ALU's (R103). -/
theorem aluResult_wrapWord {cfg : Config} (he : ¬ InRange cfg.wordBits e) (hwrap : cfg.overflow = .wrap)
    (hW : 1 ≤ cfg.wordBits) : Claims.AluResult cfg e (wrapWord cfg.wordBits e) :=
  .inr ⟨he, hwrap, hW, wrapWord_inRange hW e, Int.dvd_bmod_sub_self⟩

end Overflow

/-! ### What an effect does -/

section Effects

variable {s t : State} {i : Instr}

/-- An effect that raises sets the fault register and nothing else, except that an In has taken its item (R108, R140). -/
theorem Effect.of_fault (he : Effect s i t) (hs : s.fault = none) {k : FaultKind} (hk : t.fault = some k) :
    ∃ items, t = { s with fault := some k, input := items } ∧
      (items = s.input ∨ ∃ dst item, i = .input dst ∧ s.input = item :: items) := by
  have completed : s.fault = some k → False := by simp [hs]
  cases he with
  | raised => exact ⟨s.input, by rw [← hk]; rfl, .inl rfl⟩
  | malformed hin => exact ⟨_, by rw [← hk]; rfl, .inr ⟨_, _, rfl, hin⟩⟩
  | inputOutOfBounds hin => exact ⟨_, by rw [← hk]; rfl, .inr ⟨_, _, rfl, hin⟩⟩
  | _ => exact (completed hk).elim

/-- The last raw operand of Add, Mul, LessThan and Equals is the destination (R66, R97). -/
theorem Result.destination_eq {cfg : Config} {a b : ReadOperand} {dst x y r : Word} (hr : Result cfg x y i r)
    (hraws : i.raws = [a.raw, b.raw, dst]) : Claims.destination i = some dst := by
  cases hr <;> simp_all [Instr.raws, Claims.destination]

/-- Where an effect leaves `pc`: where it was, after the instruction's last cell with the machine as little stopped as
before, or at a jump's target inside memory (R98, R99). -/
theorem Effect.pc_cases (he : Effect s i t) :
    t.pc = s.pc ∨ (t.pc = s.pc + i.width ∧ t.fault = s.fault ∧ t.halted = s.halted) ∨ t.pc < s.mem.size := by
  cases he with
  | raised => exact .inl rfl
  | stored _ hraws => exact .inr (.inl ⟨by rw [Instr.width_eq_raws_length, hraws]; rfl, rfl, rfl⟩)
  | waits => exact .inl rfl
  | malformed => exact .inl rfl
  | inputOutOfBounds => exact .inl rfl
  | inputStored => exact .inr (.inl ⟨rfl, rfl, rfl⟩)
  | emitted => exact .inr (.inl ⟨rfl, rfl, rfl⟩)
  | jumped _ _ _ _ hb => exact .inr (.inr ((Int.toNat_lt hb.1).mpr hb.2))
  | fellThrough _ hi =>
    rcases hi with ⟨rfl, _⟩ | ⟨rfl, _⟩
    · exact .inr (.inl ⟨rfl, rfl, rfl⟩)
    · exact .inr (.inl ⟨rfl, rfl, rfl⟩)
  | stopped => exact .inl rfl

/-- A taken jump that completes goes to an address of memory (R99, R122). -/
theorem pc_lt_of_execJump_taken {P : Word → Prop} [DecidablePred P] {a target : ReadOperand} {c : Int}
    (hc : Claims.Resolves s a c) (hP : P c) (h : execJump P a target s = .next t) (ht : t.fault = none) :
    t.pc < s.mem.size := by
  rcases State.commit_two h with ⟨o, _, _, rfl⟩ | ⟨c', p, hc', _, hend⟩
  · cases ht
  · obtain rfl : c' = c := Except.ok.inj (hc'.symm.trans (State.val_ok_iff_resolves.mpr hc))
    rw [if_pos hP] at hend
    rcases State.commit_next.mp hend with hjump | ⟨k, _, rfl⟩
    · obtain ⟨hb, rfl⟩ := State.jumpTo_ok.mp hjump
      exact (Int.toNat_lt hb.1).mpr hb.2
    · cases ht

/-- Only the destination is written (R108). -/
theorem Effect.get_eq (he : Effect s i t) {x : Nat} (hx : Claims.destination i ≠ some (x : Int)) :
    t.mem.get x = s.mem.get x := by
  have other : ∀ {dst : Int} {r : Word}, Claims.destination i = some dst → s.InBounds dst →
      (s.mem.set dst.toNat r).get x = s.mem.get x := by
    intro dst r hdst hb
    rw [Memory.get_set, if_neg]
    rintro rfl
    exact hx (by rw [hdst, Int.toNat_of_nonneg hb.1])
  cases he with
  | stored _ hraws _ _ hr hb => exact other (hr.destination_eq hraws) hb
  | inputStored _ hb => exact other rfl hb
  | _ => rfl

/-- Only In touches the input, and takes one item at most (R108). -/
theorem Effect.input_cases (he : Effect s i t) :
    t.input = s.input ∨ (i.opcode = .input ∧ ∃ item, s.input = item :: t.input) := by
  cases he with
  | malformed hin => exact .inr ⟨rfl, _, hin⟩
  | inputOutOfBounds hin => exact .inr ⟨rfl, _, hin⟩
  | inputStored hin => exact .inr ⟨rfl, _, hin⟩
  | _ => exact .inl rfl

/-- Only Out touches the output (R108). -/
theorem Effect.output_eq (he : Effect s i t) (hi : i.opcode ≠ .output) : t.output = s.output := by
  cases he with
  | emitted => exact absurd rfl hi
  | _ => rfl

/-- Out, where it completes, appends one value (R116). -/
theorem Effect.output_append (he : Effect s i t) (hi : i.opcode = .output) (ht : t.fault = none) :
    ∃ v, t.output = s.output ++ [v] := by
  cases he with
  | emitted => exact ⟨_, rfl⟩
  | raised => cases ht
  | stored _ _ _ _ hr => cases hr <;> cases hi
  | jumped _ hjump => rcases hjump with ⟨rfl, _⟩ | ⟨rfl, _⟩ <;> cases hi
  | fellThrough _ hjump => rcases hjump with ⟨rfl, _⟩ | ⟨rfl, _⟩ <;> cases hi
  | _ => cases hi

end Effects

end Machine

end Sys2Proof

namespace Sys2Proof.Claims

open Sys2Proof.Machine

/-- Settles O10. A well-formed state has `pc` in `[0, N]`, and every reachable state is well-formed. -/
theorem fetchOutsideMemoryRaises : Obligations.FetchOutsideMemoryRaises := by
  refine ⟨fun s ⟨hh, hf⟩ hpc => step_raises_of_pc_outside hh hf hpc, fun s ⟨hh, hf⟩ hsize hpc => ?_,
    fun cfg s hcfg hs hpc => le_antisymm (hs.wf hcfg).pc hpc⟩
  simpa [hpc] using step_raises_of_pc_outside hh hf (hsize ▸ Nat.zero_le s.pc)

/-- Settles O12. The cells before the first missing one are in memory, so that it is cell `N`; a fetch that succeeds has
read every word from its place. -/
theorem firstMissingOperandCellRaises : Obligations.FirstMissingOperandCellRaises := by
  refine ⟨fun s h k ⟨hh, hf⟩ hpc hd hk hlt hge => ?_, fun s i hi => ?_⟩
  · have hN : s.mem.size = s.pc + 1 + k := by omega
    rw [← hN]
    exact step_raises_of_fetch_error hh hf (State.fetch_error_of_missing_cell hpc hd (by omega))
  · have hwidth := State.fetch_width hi
    rw [Instr.width] at hwidth
    obtain ⟨_, _, hwords⟩ := State.fetch_ok_iff_words.mp hi
    exact ⟨(Instr.readOperandsFirst i).2, fun k hk => (hwords k _ (List.getElem?_eq_getElem hk)).2, by omega⟩

/-- Settles O22. Under `fault` the ALU's fault ends the step; under `wrap` its result is stored like any other, and it is
the one in-range integer congruent to the exact result. -/
theorem overflowFollowsThePolicy : Obligations.OverflowFollowsThePolicy := by
  intro a b dst s x y hx hy i e hi he
  obtain ⟨g, hexec, hg⟩ := exec_eq_execStore_narrow hi
  refine ⟨fun hfault => ?_, fun hwrap hW hdst => ?_⟩
  · have hk : g x y = .error .arithmeticOverflow := hg ▸ narrow_error.mpr ⟨he, hfault, rfl⟩
    exact ⟨_, hexec.trans (execStore_error hx hy hk), rfl, ⟨rfl, fun _ => rfl⟩, rfl⟩
  · have hr := narrow_of_aluResult (aluResult_wrapWord he hwrap hW)
    obtain ⟨t, ht, hstores, _, ⟨_, hfault, _⟩, _⟩ := (storesAndAdvances_of_exec hexec hx hy (hg.trans hr)).2 hdst
    exact ⟨t, _, ht, hfault, hstores, wrapWord_inRange hW e, Int.dvd_bmod_sub_self,
      fun u hu hdvd => (wrapWord_eq_of_inRange hW hu hdvd).symm⟩

/-- Settles O24, effect by effect: the raising ones leave `pc`, and each of the others is of one class. -/
theorem programCounterUpdate : Obligations.ProgramCounterUpdate := by
  intro s t i hs hexec
  have he := exec_effect hexec
  refine ⟨fun ht => ?_, fun ht => ?_⟩
  · obtain ⟨k, hk⟩ := Option.ne_none_iff_exists'.mp ht
    obtain ⟨items, rfl, _⟩ := he.of_fault hs hk
    rfl
  · cases he with
    | raised => cases ht
    | malformed => cases ht
    | inputOutOfBounds => cases ht
    | stored _ _ _ _ hr => cases hr <;> rfl
    | waits hin => exact .inl ⟨hin, rfl⟩
    | inputStored hin => exact .inr ⟨by simp [hin], rfl⟩
    | emitted => rfl
    | jumped _ hi hc hp hb =>
      have hto := Int.toNat_of_nonneg hb.1
      rw [State.val_ok_iff_resolves] at hc hp
      rcases hi with ⟨rfl, hne⟩ | ⟨rfl, h0⟩
      · exact ⟨_, _, hc, hp, fun _ => hto, fun h0 => absurd h0 hne⟩
      · exact ⟨_, _, hc, hp, fun _ => hto, fun hne => absurd h0 hne⟩
    | fellThrough _ hi hc hp =>
      rw [State.val_ok_iff_resolves] at hc hp
      rcases hi with ⟨rfl, h0⟩ | ⟨rfl, hne⟩
      · exact ⟨_, _, hc, hp, fun hne => absurd h0 hne, fun _ => rfl⟩
      · exact ⟨_, _, hc, hp, fun h0 => absurd h0 hne, fun _ => rfl⟩
    | stopped => rfl

/-- Settles O25. Of the three places an effect can leave `pc` only the fall-through is not below `N`, and the fetch found
the instruction inside memory. -/
theorem fallThroughPastTheLastCell : Obligations.FallThroughPastTheLastCell := by
  refine ⟨fun s t hpc hstep hge => ?_, fun s t a target c hc _ ht hjump => ?_⟩
  · obtain ⟨hh, hf, ⟨k, _, rfl⟩ | ⟨i, hi, hexec⟩⟩ := step_next.mp hstep
    · exact absurd hpc (Nat.not_lt.mpr hge)
    · have he := exec_effect hexec
      have hwidth := State.fetch_width hi
      rcases he.pc_cases with hstay | ⟨hfall, hfault, hhalted⟩ | hinside
      · omega
      · have hN : t.pc = s.mem.size := by omega
        have hht : t.halted = false := hhalted.trans hh
        have hft : t.fault = none := hfault.trans hf
        have hraise := step_raises_of_pc_outside hht hft (by rw [hN, he.size_eq])
        exact ⟨i, hi, by omega, hN, he.size_eq, hft, hht, hN ▸ hraise⟩
      · omega
  · rcases hjump with ⟨hne, hexec⟩ | ⟨h0, hexec⟩
    · exact pc_lt_of_execJump_taken (P := fun c => c ≠ 0) hc hne hexec ht
    · exact pc_lt_of_execJump_taken (P := fun c => c = 0) hc h0 hexec ht

/-- Settles O30. A raising fetch touches the fault register only; otherwise each clause is what the effect leaves
unchanged. -/
theorem stepPerformsNothingMore : Obligations.StepPerformsNothingMore := by
  intro s t hstep
  obtain ⟨hh, hf, ⟨k, _, rfl⟩ | ⟨i, hi, hexec⟩⟩ := step_next.mp hstep
  · refine ⟨fun ht => (nomatch ht), fun k' hk' => ⟨s.input, ?_, .inl rfl⟩⟩
    rw [← hk']
    rfl
  · have he := exec_effect hexec
    refine ⟨fun ht => ⟨i, hi, he.size_eq, he.cfg_eq, fun _ => he.get_eq, ?_, ?_, he.output_eq, ?_, ?_, ?_⟩,
      fun k hk => ?_⟩
    · exact fun hop => he.input_cases.resolve_right fun h => hop h.1
    · exact fun _ => he.input_cases.imp_right And.right
    · exact fun hop => he.output_append hop ht
    · exact fun hop => (he.halted_cases.resolve_right fun h => hop (h.1 ▸ rfl)).trans hh
    · intro hop
      obtain rfl := Instr.eq_halt_of_opcode hop
      obtain rfl : s.setHalted true = t := Host.Outcome.next.inj hexec
      exact ⟨rfl, rfl⟩
    · obtain ⟨items, heq, hitems⟩ := he.of_fault hf hk
      refine ⟨items, heq, hitems.imp_right ?_⟩
      rintro ⟨dst, item, rfl, hin⟩
      exact ⟨dst, item, hi, hin⟩

/-- Settles O8: the words at `pc` are what the step fetches. -/
theorem stepRunsTheDecodedInstruction : Obligations.StepRunsTheDecodedInstruction :=
  fun _ _ _ _ ⟨hh, hf⟩ hws hdec => step_of_fetch hh hf (State.fetch_of_wordsAtPc hws hdec)

/-- Settles O11: the state after a raised fault is not halted and holds it. -/
theorem decodeFailureIsFatal : Obligations.DecodeFailureIsFatal := by
  intro s ⟨hh, hf⟩ hpc
  refine ⟨fun _ => step_raises_of_decode_error hh hf hpc, fun _ => step_raises_of_decode_error hh hf hpc,
    fun f t hd hstep => ?_⟩
  obtain rfl : s.setFault (some (FaultKind.ofDecode f)) = t :=
    Host.Outcome.next.inj ((step_raises_of_decode_error hh hf hpc hd).symm.trans hstep)
  exact step_of_fault hh rfl

/-- Settles O40. The reset state is the unloaded machine with the default parameters. -/
theorem resetStateIsTheEmptyLoad : Obligations.ResetStateIsTheEmptyLoad :=
  ⟨State.unloaded_wf (cfg := Config.standard) (by decide), State.load_some.mpr ⟨by decide, rfl⟩,
    step_raises_of_pc_outside rfl rfl le_rfl⟩

end Sys2Proof.Claims

/-! SUPPORT. Add and Mul (spec/41_arithmetic.md). The words of an instruction with two sources and a destination, every
accepted digit included, and what an instruction that narrows an exact result and stores it does. Both obligations of
spec/41_arithmetic.md follow. -/

namespace Sys2Proof

/-! ### Words with a dst digit -/

section StoreWords

variable {cfg : Config} {i : Instr}

/-- Every write operand comes after the read operands (R78). -/
theorem Instr.readOperands_length_of_dstPosition {p : Nat} (hdst : i.opcode.dstPosition = some p) :
    i.readOperands.length = p := by
  cases i <;> cases hdst <;> rfl

/-- A canonical word has the dst digit 0 (R78). -/
theorem Instr.modeDigitAt_canonicalWord_dst {p : Nat} (hdst : i.opcode.dstPosition = some p) :
    Claims.modeDigitAt i.canonicalWord p = 0 := by
  have hnone : (i.readOperands.map ReadOperand.mode)[p]? = none :=
    List.getElem?_eq_none (by simp [Instr.readOperands_length_of_dstPosition hdst])
  rw [← digit_modeSequence i.canonicalWord_nonneg, modeSequence_canonicalWord, digit_modeNumber, hnone]
  rfl

/-- The mode an accepted digit selects has that digit (R69). -/
theorem Mode.digit_modeFor {v : Variant} {d : Nat} (hd : Claims.Accepted v d) : (Claims.modeFor d).digit = d := by
  rcases hd with rfl | ⟨rfl, _⟩ <;> rfl

/-- The mode an accepted digit selects is one the variant has (R75). -/
theorem modeFor_inVariant {v : Variant} {d : Nat} (hd : Claims.Accepted v d) :
    v = .extended ∨ Claims.modeFor d = .position := by
  rcases hd with rfl | ⟨_, hv⟩
  exacts [.inr rfl, .inl hv]

/-- The words of an instruction with two sources and a destination, with any accepted digits (R66, R71, R73). -/
theorem decode_store_word {d0 d1 d2 : Nat} {r0 r1 : Word} (hdst : i.opcode.dstPosition = some 2)
    (hops : i.readOperands = [⟨Claims.modeFor d0, r0⟩, ⟨Claims.modeFor d1, r1⟩]) (hv : i.InVariant cfg.variant)
    (h0 : Claims.Accepted cfg.variant d0) (h1 : Claims.Accepted cfg.variant d1) (h2 : Claims.Accepted cfg.variant d2) :
    decode cfg ((i.opcode.number + 100 * d0 + 1000 * d1 + 10000 * d2 : Nat) : Int) = .ok i.header := by
  have hmodes : i.ModesInVariant cfg.variant := by
    rcases modeFor_inVariant h0 with hext | hpos0
    · exact .inl hext
    rcases modeFor_inVariant h1 with hext | hpos1
    · exact .inl hext
    exact .inr (by simp [hops, hpos0, hpos1])
  have hpair : Opcode.ofPair cfg.variant (opcodePair i.canonicalWord) = some i.opcode :=
    Opcode.ofPair_eq_some.mpr ⟨Instr.opcode_mem_validOpcodes hv, (opcodePair_canonicalWord i).symm⟩
  have hword : ((i.opcode.number + 100 * d0 + 1000 * d1 + 10000 * d2 : Nat) : Int) =
      i.canonicalWord + d2 * 10 ^ (2 + 2) := by
    simp only [Instr.canonicalWord, hops, List.map_cons, List.map_nil, modeNumber, Mode.digit_modeFor h0,
      Mode.digit_modeFor h1]
    push_cast
    ring
  calc decode cfg ((i.opcode.number + 100 * d0 + 1000 * d1 + 10000 * d2 : Nat) : Int)
      = decode cfg (i.canonicalWord + d2 * 10 ^ (2 + 2)) := by rw [hword]
    _ = decode cfg i.canonicalWord :=
        decode_add_dst_of_accepted hpair hdst (Instr.modeDigitAt_canonicalWord_dst hdst) h2
    _ = .ok i.header := decode_canonicalWord hv hmodes

end StoreWords

namespace Machine

/-! ### Sources in order, then the result -/

section Arithmetic

variable {s : State} {a b : ReadOperand} {dst : Word} {i : Instr}

/-- A read operand that cannot be resolved raises its raw word (R95). -/
theorem State.val_of_unresolvable (ha : Claims.Unresolvable s a) : s.val a = .error (.outOfBounds a.raw) :=
  State.val_error.mpr ⟨ha.1, ha.2, rfl⟩

/-- The shape `dst <- g(a, b)` raises the first source that cannot be resolved (R96, R144). -/
theorem sourcesInOrder_of_execStore {g : Word → Word → Except FaultKind Word}
    (hexec : exec i s = execStore g a b dst s) : Claims.SourcesInOrder i a b s := by
  refine ⟨fun ha => ?_, fun x hx hb => ?_⟩
  · rw [hexec, execStore, State.val_of_unresolvable ha]
    rfl
  · rw [hexec, execStore, State.val_ok_iff_resolves.mpr hx, State.val_of_unresolvable hb]
    rfl

/-- An instruction that narrows the exact integer `f(x, y)` and stores it: the sources in order, the overflow fault, and
otherwise the ALU's result at the destination (R103, R110, R111). -/
theorem narrowing_store_rule {f : Int → Int → Int}
    (hexec : exec i s = execStore (fun x y => narrow s.cfg (f x y)) a b dst s) :
    Claims.SourcesInOrder i a b s ∧
      ∀ x y : Int, Claims.Resolves s a x → Claims.Resolves s b y →
        (¬ InRange s.cfg.wordBits (f x y) → s.cfg.overflow = .fault →
          Claims.Raises (exec i s) s .arithmeticOverflow) ∧
        (∀ r, Claims.AluResult s.cfg (f x y) r → Claims.StoresAndAdvances i s dst r 4) :=
  ⟨sourcesInOrder_of_execStore hexec, fun _ _ hx hy =>
    ⟨fun hout hfault => hexec.trans (execStore_error hx hy (narrow_error.mpr ⟨hout, hfault, rfl⟩)),
      fun _ hr => storesAndAdvances_of_exec hexec hx hy (narrow_of_aluResult hr)⟩⟩

end Arithmetic

end Machine

end Sys2Proof

namespace Sys2Proof.Claims

open Sys2Proof.Machine

/-- Settles O13. Add belongs to every variant, and narrows the exact sum. -/
theorem addFollowsItsRule : Obligations.AddFollowsItsRule :=
  ⟨fun _ d0 d1 _ => decode_store_word (i := .add ⟨modeFor d0, 0⟩ ⟨modeFor d1, 0⟩ 0) rfl rfl (.inr (.inl rfl)),
    fun _ _ _ => rfl, fun a b dst s => narrowing_store_rule (f := (· + ·)) (exec_add a b dst s)⟩

/-- Settles O14. Mul belongs to every variant, and narrows the exact product. -/
theorem mulFollowsItsRule : Obligations.MulFollowsItsRule :=
  ⟨fun _ d0 d1 _ => decode_store_word (i := .mul ⟨modeFor d0, 0⟩ ⟨modeFor d1, 0⟩ 0) rfl rfl (.inr (.inr (.inl rfl))),
    fun _ _ _ => rfl, fun a b dst s => narrowing_store_rule (f := (· * ·)) (exec_mul a b dst s)⟩

end Sys2Proof.Claims

/-! SUPPORT. In and Out (spec/42_io.md). The words of the two instructions with every accepted digit, and what each does
once its item or its operand is known. Both obligations of spec/42_io.md follow. -/

namespace Sys2Proof

/-! ### Their words -/

section ChannelWords

variable {cfg : Config} {d : Nat}

/-- The extended set accepts the digits 0 and 1 (R69, R75). -/
theorem accepted_of_le_one {v : Variant} (hv : v = .extended) (hd : d ≤ 1) : Claims.Accepted v d :=
  (Nat.le_one_iff_eq_zero_or_eq_one.mp hd).imp_right fun h => ⟨h, hv⟩

/-- A canonical word with an accepted digit put at its dst position decodes like the canonical word (R71, R78). -/
theorem decode_canonicalWord_add_dst {i : Instr} {p : Nat} (hdst : i.opcode.dstPosition = some p)
    (hv : i.InVariant cfg.variant) (hm : i.ModesInVariant cfg.variant) (hd : Claims.Accepted cfg.variant d) :
    decode cfg (i.canonicalWord + d * 10 ^ (p + 2)) = .ok i.header := by
  have hpair : Opcode.ofPair cfg.variant (opcodePair i.canonicalWord) = some i.opcode :=
    Opcode.ofPair_eq_some.mpr ⟨Instr.opcode_mem_validOpcodes hv, (opcodePair_canonicalWord i).symm⟩
  rw [decode_add_dst_of_accepted hpair hdst (Instr.modeDigitAt_canonicalWord_dst hdst) hd, decode_canonicalWord hv hm]

variable (hv : cfg.variant = .extended) (hd : d ≤ 1)

include hv hd

/-- In's only digit is its dst digit (R71, R115). -/
theorem decode_input_word : decode cfg ((3 + 100 * d : Nat) : Int) = .ok .input := by
  have hword : ((3 + 100 * d : Nat) : Int) = (Instr.input 0).canonicalWord + d * 10 ^ (0 + 2) := by
    rw [Instr.canonicalWord_eq_canonicalWordFor, Claims.canonicalWordFor]
    omega
  rw [hword]
  exact decode_canonicalWord_add_dst rfl (.inl hv) (.inl hv) (accepted_of_le_one hv hd)

/-- Out's only digit is that of its read operand, so that each of its words is canonical (R78, R116). -/
theorem decode_output_word : decode cfg ((4 + 100 * d : Nat) : Int) = .ok (.output (Claims.modeFor d)) := by
  have hword : ((4 + 100 * d : Nat) : Int) = (Instr.output ⟨Claims.modeFor d, 0⟩).canonicalWord := by
    rw [Instr.canonicalWord_eq_canonicalWordFor, Claims.canonicalWordFor, ← Mode.digit_eq_digitFor,
      Mode.digit_modeFor (accepted_of_le_one hv hd)]
  rw [hword]
  exact decode_canonicalWord (.inl hv) (.inl hv)

end ChannelWords

namespace Machine

/-! ### A store that ends a step -/

section StoreEnds

variable {s : State} {dst v : Word}

theorem State.commit_memWrite_of_inBounds (h : s.InBounds dst) (n : Nat) :
    s.commit (do let t ← s.memWrite dst v; return t.advance n) =
      .next ((s.setMem (s.mem.set dst.toNat v)).advance n) := by
  rw [State.memWrite_ok.mpr ⟨h, rfl⟩]
  rfl

theorem State.commit_memWrite_of_not_inBounds (h : ¬ s.InBounds dst) (n : Nat) :
    s.commit (do let t ← s.memWrite dst v; return t.advance n) = .next (s.setFault (some (.outOfBounds dst))) := by
  rw [State.memWrite_error.mpr ⟨h, rfl⟩]
  rfl

end StoreEnds

/-! ### In, by the head of its channel -/

section Input

variable {s : State} {dst v : Word} {rest : List InputItem}

/-- A `Malformed` item is taken and raises the parse fault (R115, R139). -/
theorem exec_input_malformed (h : s.input = .malformed :: rest) :
    exec (.input dst) s = .next ((s.setInput rest).setFault (some .inputParseFailure)) := by
  rw [exec, execInput, h]
  rfl

/-- A value is taken, and its store ends the step (R115). -/
theorem exec_input_value (h : s.input = .value v :: rest) :
    exec (.input dst) s =
      (s.setInput rest).commit (do let t ← (s.setInput rest).memWrite dst v; return t.advance 2) := by
  rw [exec, execInput, h]
  rfl

end Input

/-! ### Out, by its operand -/

section Output

variable {s : State} {a : ReadOperand} {x : Int}

theorem exec_output_of_unresolvable (h : Claims.Unresolvable s a) :
    exec (.output a) s = .next (s.setFault (some (.outOfBounds a.raw))) := by
  rw [exec, execOutput, State.val_of_unresolvable h]
  rfl

theorem exec_output_of_resolves (h : Claims.Resolves s a x) :
    exec (.output a) s = .next ((s.outPut x).advance 2) := by
  rw [exec, execOutput, State.val_ok_iff_resolves.mpr h]
  rfl

end Output

end Machine

end Sys2Proof

namespace Sys2Proof.Claims

open Sys2Proof.Machine

/-- Settles O15, by the head of the channel; a value is stored from the state whose head item is taken. -/
theorem inFollowsItsRule : Obligations.InFollowsItsRule := by
  refine ⟨fun _ _ => decode_input_word, fun _ => rfl, fun dst s =>
    ⟨exec_input_waits dst, fun _ => exec_input_malformed, fun v rest hin => ?_⟩⟩
  rw [exec_input_value hin]
  refine ⟨fun hout => State.commit_memWrite_of_not_inBounds (s := s.setInput rest) hout 2, fun hdst => ?_⟩
  exact ⟨_, State.commit_memWrite_of_inBounds (s := s.setInput rest) hdst 2, State.stores_setMem hdst.1, rfl,
    ⟨rfl, rfl, rfl⟩, rfl, rfl⟩

/-- Settles O16, by whether the operand can be resolved. -/
theorem outFollowsItsRule : Obligations.OutFollowsItsRule :=
  ⟨fun _ _ => decode_output_word, fun _ => rfl, fun _ _ =>
    ⟨exec_output_of_unresolvable, fun _ hx =>
      ⟨_, exec_output_of_resolves hx, rfl, rfl, ⟨rfl, fun _ => rfl⟩, ⟨rfl, rfl, rfl⟩, rfl⟩⟩⟩

end Sys2Proof.Claims

/-! SUPPORT. The conditional jumps (spec/43_jumps.md). The words of an instruction whose two operands are both read, and
what the shape of the two jumps does once its operands are known. Both obligations of spec/43_jumps.md follow. -/

namespace Sys2Proof

/-! ### Their words -/

/-- With two read operands every pair of accepted digits is that of a canonical word (R66, R78). -/
theorem decode_two_reads_word {cfg : Config} {i : Instr} {d0 d1 : Nat} {r0 r1 : Word}
    (hops : i.readOperands = [⟨Claims.modeFor d0, r0⟩, ⟨Claims.modeFor d1, r1⟩]) (hv : cfg.variant = .extended)
    (h0 : d0 ≤ 1) (h1 : d1 ≤ 1) :
    decode cfg ((i.opcode.number + 100 * d0 + 1000 * d1 : Nat) : Int) = .ok i.header := by
  have hword : ((i.opcode.number + 100 * d0 + 1000 * d1 : Nat) : Int) = i.canonicalWord := by
    simp only [Instr.canonicalWord, hops, List.map_cons, List.map_nil, modeNumber,
      Mode.digit_modeFor (accepted_of_le_one hv h0), Mode.digit_modeFor (accepted_of_le_one hv h1)]
    omega
  rw [hword]
  exact decode_canonicalWord (.inl hv) (.inl hv)

namespace Machine

/-! ### Operands in order, then the target check -/

section Jumps

variable {s : State} {a target : ReadOperand} {c t : Int} {i : Instr} {P : Word → Prop} [DecidablePred P]
  (hexec : exec i s = execJump P a target s)

include hexec

/-- A jump raises the first operand that cannot be resolved, whether it is taken or not (R96, R144). -/
theorem sourcesInOrder_of_execJump : Claims.SourcesInOrder i a target s := by
  refine ⟨fun ha => ?_, fun c hc ht => ?_⟩
  · rw [hexec, execJump, State.val_of_unresolvable ha]
    rfl
  · rw [hexec, execJump, State.val_ok_iff_resolves.mpr hc, State.val_of_unresolvable ht]
    rfl

variable (hc : Claims.Resolves s a c) (ht : Claims.Resolves s target t)

include hc ht

theorem exec_jump_of_resolves :
    exec i s = s.commit (if P c then s.jumpTo t else .ok (s.advance 3)) := by
  rw [hexec, execJump, State.val_ok_iff_resolves.mpr hc, State.val_ok_iff_resolves.mpr ht]
  rfl

theorem exec_jump_taken (hP : P c) (hb : s.InBounds t) : exec i s = .next (s.setPc t.toNat) := by
  rw [exec_jump_of_resolves hexec hc ht, if_pos hP, State.jumpTo_ok.mpr ⟨hb, rfl⟩]
  rfl

theorem exec_jump_out_of_bounds (hP : P c) (hb : ¬ s.InBounds t) :
    exec i s = .next (s.setFault (some (.outOfBounds t))) := by
  rw [exec_jump_of_resolves hexec hc ht, if_pos hP, State.jumpTo_error.mpr ⟨hb, rfl⟩]
  rfl

theorem exec_jump_not_taken (hP : ¬ P c) : exec i s = .next (s.advance 3) := by
  rw [exec_jump_of_resolves hexec hc ht, if_neg hP]
  rfl

/-- The target of a taken jump is checked, and only `pc` changes (R120 to R122). -/
theorem jumpsOrFallsThrough_of_execJump : Claims.JumpsOrFallsThrough i s (P c) t :=
  ⟨exec_jump_out_of_bounds hexec hc ht,
    fun hP hb => ⟨_, exec_jump_taken hexec hc ht hP hb, Int.toNat_of_nonneg hb.1, ⟨rfl, fun _ => rfl⟩, ⟨rfl, rfl, rfl⟩,
      rfl, rfl⟩,
    fun hP => ⟨_, exec_jump_not_taken hexec hc ht hP, rfl, ⟨rfl, fun _ => rfl⟩, ⟨rfl, rfl, rfl⟩, rfl, rfl⟩⟩

end Jumps

end Machine

end Sys2Proof

namespace Sys2Proof.Claims

open Sys2Proof.Machine

/-- Settles O17. JumpIfTrue is the common jump, taken where the condition is not 0. -/
theorem jumpIfTrueFollowsItsRule : Obligations.JumpIfTrueFollowsItsRule :=
  ⟨fun _ d0 d1 => decode_two_reads_word (i := .jumpIfTrue ⟨modeFor d0, 0⟩ ⟨modeFor d1, 0⟩) rfl, fun _ _ => rfl,
    fun a target s =>
      have hexec := exec_jumpIfTrue a target s
      ⟨sourcesInOrder_of_execJump hexec, fun _ _ => jumpsOrFallsThrough_of_execJump hexec⟩⟩

/-- Settles O18. JumpIfFalse is the common jump, taken where the condition is 0. -/
theorem jumpIfFalseFollowsItsRule : Obligations.JumpIfFalseFollowsItsRule :=
  ⟨fun _ d0 d1 => decode_two_reads_word (i := .jumpIfFalse ⟨modeFor d0, 0⟩ ⟨modeFor d1, 0⟩) rfl, fun _ _ => rfl,
    fun a target s =>
      have hexec := exec_jumpIfFalse a target s
      ⟨sourcesInOrder_of_execJump hexec, fun _ _ => jumpsOrFallsThrough_of_execJump hexec⟩⟩

end Sys2Proof.Claims

/-! SUPPORT. LessThan and Equals (spec/44_compare.md). The words of an instruction with two sources and a destination in
the extended set, and what the shape of the two comparisons does. Both obligations of spec/44_compare.md follow. -/

namespace Sys2Proof

/-- In the extended set every choice of the digits 0 and 1 is a word of an instruction with two sources and a destination
(R69, R71, R75). -/
theorem decode_store_word_of_le_one {cfg : Config} {i : Instr} {d0 d1 d2 : Nat} {r0 r1 : Word}
    (hdst : i.opcode.dstPosition = some 2)
    (hops : i.readOperands = [⟨Claims.modeFor d0, r0⟩, ⟨Claims.modeFor d1, r1⟩]) (hv : cfg.variant = .extended)
    (h0 : d0 ≤ 1) (h1 : d1 ≤ 1) (h2 : d2 ≤ 1) :
    decode cfg ((i.opcode.number + 100 * d0 + 1000 * d1 + 10000 * d2 : Nat) : Int) = .ok i.header :=
  decode_store_word hdst hops (.inl hv) (accepted_of_le_one hv h0) (accepted_of_le_one hv h1) (accepted_of_le_one hv h2)

namespace Machine

/-- An instruction that stores whether `P` holds of its sources: the sources in order, then 1 where it holds and 0 where
it does not; there is no other fault than the store's (R125, R126). -/
theorem comparing_store_rule {P : Int → Int → Prop} [∀ x y, Decidable (P x y)] {s : State} {a b : ReadOperand}
    {dst : Word} {i : Instr}
    (hexec : exec i s = execStore (fun x y => .ok (if P x y then 1 else 0)) a b dst s) :
    Claims.SourcesInOrder i a b s ∧
      ∀ x y : Int, Claims.Resolves s a x → Claims.Resolves s b y →
        (P x y → Claims.StoresAndAdvances i s dst 1 4) ∧ (¬ P x y → Claims.StoresAndAdvances i s dst 0 4) :=
  ⟨sourcesInOrder_of_execStore hexec, fun _ _ hx hy =>
    ⟨fun hP => storesAndAdvances_of_exec hexec hx hy (congrArg Except.ok (if_pos hP)),
      fun hP => storesAndAdvances_of_exec hexec hx hy (congrArg Except.ok (if_neg hP))⟩⟩

end Machine

end Sys2Proof

namespace Sys2Proof.Claims

open Sys2Proof.Machine

/-- Settles O19. LessThan is the common comparison, with the signed order, which is total. -/
theorem lessThanFollowsItsRule : Obligations.LessThanFollowsItsRule := by
  refine ⟨fun _ d0 d1 _ => decode_store_word_of_le_one (i := .lessThan ⟨modeFor d0, 0⟩ ⟨modeFor d1, 0⟩ 0) rfl rfl,
    fun _ _ _ => rfl, fun a b dst s => ?_⟩
  obtain ⟨hsources, hstore⟩ := comparing_store_rule (P := (· < ·)) (exec_lessThan a b dst s)
  refine ⟨hsources, fun x y hx hy => ?_⟩
  obtain ⟨hless, hnotLess⟩ := hstore x y hx hy
  exact ⟨hless, fun hle => hnotLess (not_lt_of_ge hle)⟩

/-- Settles O20. Equals is the common comparison, with equality. -/
theorem equalsFollowsItsRule : Obligations.EqualsFollowsItsRule :=
  ⟨fun _ d0 d1 _ => decode_store_word_of_le_one (i := .equals ⟨modeFor d0, 0⟩ ⟨modeFor d1, 0⟩ 0) rfl rfl,
    fun _ _ _ => rfl, fun a b dst s => comparing_store_rule (P := (· = ·)) (exec_equals a b dst s)⟩

end Sys2Proof.Claims

/-! SUPPORT. Halt (spec/45_halt.md). The words that select it, which have no operand digit, and what its step does. The
obligation of spec/45_halt.md follows. -/

namespace Sys2Proof

/-! ### Its words -/

section HaltWords

variable {cfg : Config} {w : Int}

/-- Both sets have Halt (R68), so that the opcode pair 99 selects it under every parameter setting. -/
theorem Opcode.ofPair_halt (hw : 0 ≤ w) (hpair : w % 100 = 99) :
    Opcode.ofPair cfg.variant (opcodePair w) = some .halt :=
  Opcode.ofPair_eq_some.mpr
    ⟨Instr.opcode_mem_validOpcodes (i := .halt) (.inr (.inr (.inr rfl))),
      ((opcodePair_of_nonneg hw).trans hpair).symm⟩

/-- 99 is Halt's canonical word, and Halt has no operand that a variant could refuse (R75, R78). -/
theorem decode_ninetyNine : decode cfg 99 = .ok .halt :=
  decode_canonicalWord (i := .halt) (.inr (.inr (.inr rfl))) (.inr (List.forall_mem_nil _))

/-- Halt's arity is 0, so that under `ignore` no digit of its words is examined (R72). -/
theorem decode_halt_of_ignore (hignore : cfg.unusedDigits = .ignore) (hw : 0 ≤ w) (hpair : w % 100 = 99) :
    decode cfg w = .ok .halt := by
  have hop : Opcode.ofPair cfg.variant (opcodePair 99) = some .halt := Opcode.ofPair_halt (by decide) rfl
  have halike : decode cfg w = decode cfg 99 :=
    decode_congr_of_ignore hignore hop ((opcodePair_of_nonneg hw).trans hpair) fun k hk => absurd hk k.not_lt_zero
  exact halike.trans decode_ninetyNine

end HaltWords

namespace Machine

/-! ### Its step -/

/-- Halt only sets `halted` (R130). -/
theorem exec_halt (s : State) : exec .halt s = .next (s.setHalted true) := rfl

/-- After Halt there is no step (R91, R130). -/
theorem step_setHalted_true (s : State) : step (s.setHalted true) = .fault .halted :=
  step_of_halted (s.setHalted_halted true)

end Machine

end Sys2Proof

namespace Sys2Proof.Claims

open Sys2Proof.Machine

/-- Settles O21. With no operand, Halt has unused digits only, and its step sets `halted` in every state. -/
theorem haltFollowsItsRule : Obligations.HaltFollowsItsRule :=
  ⟨fun _ => decode_ninetyNine, fun _ _ => decode_halt_of_ignore,
    fun _ _ _ hvalidate hw hpair => decode_of_digit_not_accepted (Opcode.ofPair_halt hw hpair) (.inr hvalidate), rfl,
    fun s => ⟨s.setHalted true, exec_halt s, s.setHalted_halted true, s.setHalted_pc true,
      ⟨s.setHalted_mem true, fun _ => rfl⟩, s.setHalted_fault true, s.setHalted_cfg true, s.setHalted_input true,
      s.setHalted_output true, step_setHalted_true s⟩⟩

end Sys2Proof.Claims

/-! SUPPORT. Faults (spec/60_exceptions.md): the words that decode, what a raising step takes, what clears a fault, an
Add whose cells are in memory, and the cause codes. The obligations of spec/60_exceptions.md follow. -/

namespace Sys2Proof

/-- A word whose examined digits are all accepted decodes to the operation its opcode pair selects (R72, R73). -/
theorem exists_decode_of_digits_accepted {cfg : Config} {w : Int} {op : Opcode}
    (hop : Opcode.ofPair cfg.variant (opcodePair w) = some op)
    (hall : ∀ k, Claims.Examined cfg op k → Claims.Accepted cfg.variant (Claims.modeDigitAt w k)) :
    ∃ h, decode cfg w = .ok h ∧ h.opcode = op := by
  have hw : 0 ≤ w := nonneg_of_opcodePair (Opcode.ofPair_eq_some.mp hop).2
  simp only [accepted_iff, ← digit_modeSequence hw] at hall
  obtain ⟨h, hheader⟩ := Opcode.header_ok_iff.mpr fun k hk => hall k (.inl hk)
  have hunused := checkUnused_ok.mpr fun hval k (_ : op.arity ≤ k) => hall k (.inr hval)
  exact ⟨h, decode_ok.mpr ⟨op, hop, hheader, hunused⟩, Opcode.header_opcode hheader⟩

namespace Machine

section Faults

variable {s t : State} {k : FaultKind}

/-! ### What a raising effect takes from the input -/

/-- Of the raising effects only an In's take an item, and its fault is that item's or its destination's (R115, R140). -/
theorem Effect.input_of_fault {i : Instr} (he : Effect s i t) (hs : s.fault = none) (hk : t.fault = some k) :
    t.input = s.input ∨
      ∃ dst item, i = .input dst ∧ s.input = item :: t.input ∧
        ((item = .malformed ∧ k = .inputParseFailure) ∨ (¬ s.InBounds dst ∧ k = .outOfBounds dst)) := by
  cases he with
  | malformed hin => exact .inr ⟨_, _, rfl, hin, .inl ⟨rfl, (Option.some.inj hk).symm⟩⟩
  | inputOutOfBounds hin hb => exact .inr ⟨_, _, rfl, hin, .inr ⟨hb, (Option.some.inj hk).symm⟩⟩
  | inputStored => exact nomatch hs.symm.trans hk
  | _ => exact .inl rfl

/-! ### What clears a fault -/

/-- A load that is accepted clears the fault register (R142, R159). -/
theorem State.load_fault {prog : List Int} (h : s.load prog = some t) : t.fault = none := by
  obtain ⟨_, rfl⟩ := State.load_some.mp h
  rfl

theorem State.hostWrite_fault {a v : Int} (h : s.hostWrite a v = some t) : t.fault = s.fault := by
  obtain ⟨_, rfl⟩ := State.hostWrite_some.mp h
  rfl

/-- No request but a load changes the fault register of a faulted machine (R142). -/
theorem State.serve_fault (hk : s.fault = some k) (r : HostRequest) (hload : ∀ prog, r ≠ .load prog) :
    (s.serve r).fault = some k := by
  cases r with
  | load prog => exact absurd rfl (hload prog)
  | hostWrite a v =>
    exact getD_of_some (P := fun t => t.fault = some k) hk fun _ h => (State.hostWrite_fault h).trans hk
  | supply line => exact hk
  | step => rwa [State.serve, State.hostStep_of_stopped (.inr (by simp [hk]))]

/-! ### An Add whose cells are in memory -/

/-- The decoded Add with its three operand cells is what a fetch finds (R94). -/
theorem State.fetch_add {m0 m1 : Mode} (hd : decode s.cfg (s.mem.get s.pc) = .ok (.add m0 m1))
    (hcells : s.pc + 4 ≤ s.mem.size) :
    s.fetch = .ok (.add ⟨m0, s.mem.get (s.pc + 1)⟩ ⟨m1, s.mem.get (s.pc + 2)⟩ (s.mem.get (s.pc + 3))) := by
  refine State.fetch_ok_iff_words.mpr ⟨by omega, hd, ?_⟩
  simp only [Instr.raws, forall_getElem?_cons, List.getElem?_nil, reduceCtorEq, false_imp_iff, implies_true, and_true]
  omega

/-! ### Cause codes -/

/-- 0 is left for a machine without a fault (R135). -/
theorem FaultKind.code_ne_zero (k : FaultKind) : k.code ≠ 0 := by cases k <;> simp [FaultKind.code]

theorem State.causeCode_of_fault (hk : s.fault = some k) : s.causeCode = k.code := by rw [State.causeCode, hk]

theorem State.causeCode_eq_zero : s.causeCode = 0 ↔ s.fault = none := by
  cases hf : s.fault with
  | none => simp [State.causeCode, hf]
  | some k => simp [State.causeCode_of_fault hf, k.code_ne_zero]

end Faults

end Machine

end Sys2Proof

namespace Sys2Proof.Claims

open Sys2Proof.Machine

/-- Settles O3: no operation, the lowest examined digit that is not accepted, or every examined digit accepted. -/
theorem decodeFailsExactlyOnIllegalWords : Obligations.DecodeFailsExactlyOnIllegalWords := by
  refine fun cfg w => ⟨fun hnone => ?_, fun op hop hnum => ?_⟩
  · exact decode_of_ofPair_none (Opcode.ofPair_eq_none.mpr fun op hop => (hnone op hop).symm)
  · have hsome : Opcode.ofPair cfg.variant (opcodePair w) = some op := Opcode.ofPair_eq_some.mpr ⟨hop, hnum.symm⟩
    exact ⟨fun _ => decode_of_digit_not_accepted hsome, exists_decode_of_digits_accepted hsome⟩

/-- Settles O26. A raising step sets the fault register and nothing else but the input (O30), of which only an In
takes an item. -/
theorem faultsArePrecise : Obligations.FaultsArePrecise := by
  intro s t k hstep hk
  obtain ⟨hh, hf, hcase⟩ := step_next.mp hstep
  have hinput : t.input = s.input ∨
      ∃ dst item, s.fetch = .ok (.input dst) ∧ s.input = item :: t.input ∧
        ((item = .malformed ∧ k = .inputParseFailure) ∨ (¬ Address s dst ∧ k = .outOfBounds dst)) := by
    rcases hcase with ⟨_, _, rfl⟩ | ⟨i, hi, hexec⟩
    · exact .inl rfl
    · refine ((exec_effect hexec).input_of_fault hf hk).imp_right ?_
      rintro ⟨dst, item, rfl, htaken⟩
      exact ⟨dst, item, hi, htaken⟩
  obtain ⟨items, rfl, _⟩ := (stepPerformsNothingMore s t hstep).2 k hk
  exact ⟨⟨rfl, fun _ => rfl⟩, rfl, rfl, hh, rfl, hinput⟩

/-- Settles O27. A faulted machine is stopped, and of all requests only an accepted load touches its fault register. -/
theorem faultsAreSticky : Obligations.FaultsAreSticky := by
  intro s k hk
  have hstopped : s.Stopped := .inr (by simp [hk])
  exact ⟨fun t hstep => State.not_stopped_of_step hstep hstopped, State.serve_fault hk,
    fun prog hnone => (State.serve_load_of_none hnone).symm ▸ hk,
    fun prog t hload => ⟨State.load_fault hload, State.load_halted hload⟩⟩

/-- Settles O28. The fetch raises before the instruction runs; an Add whose cells are there runs, and raises in the
order of its own rule (O13). -/
theorem firstFaultIsReported : Obligations.FirstFaultIsReported := by
  rintro s ⟨hh, hf⟩
  refine ⟨step_raises_of_pc_outside hh hf, fun hpc => ⟨fun f => step_raises_of_decode_error hh hf hpc,
    fun m0 m1 hd => ⟨fun hmissing => ?_, fun hcells => ?_⟩⟩⟩
  · exact step_raises_of_fetch_error hh hf (State.fetch_error_of_missing_cell hpc hd hmissing)
  · rw [step_of_fetch hh hf (State.fetch_add hd hcells)]
    obtain ⟨_, _, hadd⟩ := addFollowsItsRule
    obtain ⟨⟨hfirst, hsecond⟩, hrule⟩ :=
      hadd ⟨m0, s.mem.get (s.pc + 1)⟩ ⟨m1, s.mem.get (s.pc + 2)⟩ (s.mem.get (s.pc + 3)) s
    refine ⟨hfirst, fun x hx => ⟨hsecond x hx, fun y hy => (hrule x y hx hy).1, fun y hy hrange hdst => ?_⟩⟩
    exact ((hrule x y hx hy).2 (x + y) (.inl ⟨hrange, rfl⟩)).1 hdst

/-- Settles O29. Every kind's code is at least 1, and codes and payloads are read off the table of R135. -/
theorem causeCodes : Obligations.CauseCodes :=
  ⟨fun _ => State.causeCode_eq_zero, fun _ _ => State.causeCode_of_fault, fun _ => ⟨rfl, rfl⟩, fun _ => ⟨rfl, rfl⟩,
    fun _ => ⟨rfl, rfl⟩, ⟨rfl, rfl⟩, ⟨rfl, rfl⟩⟩

end Sys2Proof.Claims

/-! The obligations of spec/70_reset_and_hazards.md about reachable states and what a load forgets. -/

namespace Sys2Proof.Claims

open Sys2Proof.Machine

/-- Settles O39. Every load from empty channels leaves what a load of the unloaded machine leaves, and every request keeps
well-formedness (O38). -/
theorem reachableStatesAreWellFormed : Obligations.ReachableStatesAreWellFormed :=
  fun _ _ => Reachable.wf

/-- Settles O42. When a load is accepted and what it then leaves (R39, R159) depend on the parameters and the channels
only. -/
theorem loadForgetsTheEarlierRun : Obligations.LoadForgetsTheEarlierRun := by
  intro s u prog hcfg hin hout
  ext t : 1
  simp only [State.load_some, hcfg, hin, hout]

end Sys2Proof.Claims
